-- ==== Sys2Proof/Word.lean ====
section
/-! DEFINITION. Words, bytes and register indices of the core (00_scope.md rules R6, R8, R9). -/

namespace Sys2Proof

/-- A 32-bit value: register contents, the program counter, an address, an instruction word (R6). -/
abbrev Word := BitVec 32

/-- The addressable unit, 8 bits (R6). -/
abbrev Byte := BitVec 8

/-- A register index, 0 to 31 (R21). -/
abbrev Reg := Fin 32

end Sys2Proof
end

