-- ==== Sys2Proof/Config.lean ====
section
/-! DEFINITION. What is fixed for this core: the parameters the source gives (00_scope.md rule R6) and the
parameters the spec decides (rule R7, 92_eei_decisions.md).  There is no free value: 93_implementation_defined.md
says that no item of this core is "any value". -/

namespace Sys2Proof.Config

/-- HALT_WORD (R6, R107). -/
def haltWord : Word := 0x00000000#32

/-- RESET_PC, the entry point (R6, R39). -/
def resetPc : Word := 0x00000000#32

/-- RESET_X2 (R6, R39; an unaudited literal, log 23). -/
def resetX2 : Word := 0x7FFFFFDC#32

/-- RESET_X3 (R6, R39; an unaudited literal, log 23). -/
def resetX3 : Word := 0x10000000#32

/-- First address of the data dump (R6, R276; log 23). -/
def dumpLo : Nat := 0x10000000

/-- Exclusive end of the data dump (R6, R276; log 23). -/
def dumpHi : Nat := 0x1000FFFD

/-- How a shift amount is read from operand2 (R7, decision D5).  `full` is the decided one, `mask5` the named
alternative. -/
inductive ShiftAmountMode where
  | full
  | mask5
  deriving DecidableEq, Repr

/-- How a quotient is rounded (R7, decision D6).  `trunc` is the decided one, `floor` the named alternative. -/
inductive DivRounding where
  | trunc
  | floor
  deriving DecidableEq, Repr

/-- SHIFT_AMOUNT_MODE = full (R7, D5; log 6). -/
def shiftAmountMode : ShiftAmountMode := .full

/-- DIV_ROUNDING = trunc (R7, D6; log 7). -/
def divRounding : DivRounding := .trunc

/-- JALR_CLEAR_BIT0 = false (R7, D10; log 10). -/
def jalrClearBit0 : Bool := false

/-- AUIPC_BIAS = 4 (R7, D12; log 13). -/
def auipcBias : Word := 4#32

end Sys2Proof.Config
end

