-- ==== Sys2Proof/Syntax.lean ====
section
/-! DEFINITION. The 32 instructions of opcode_table.json, the six formats and the operation names (00_scope.md rule
R2, 10_state.md rule R34, 30_encoding.md rules R83 to R89). -/

namespace Sys2Proof

/-- One constructor per row of opcode_table.json.  The immediates keep the width of their field: 12 bits for I and S
(R91, R92), 13 and 21 bits with the implicit low zero bit for SB and UJ (R93, R95), 20 bits for U (R94). -/
inductive Instr where
  | add (rd rs1 rs2 : Reg)
  | sub (rd rs1 rs2 : Reg)
  | sll (rd rs1 rs2 : Reg)
  | slt (rd rs1 rs2 : Reg)
  | xor (rd rs1 rs2 : Reg)
  | srl (rd rs1 rs2 : Reg)
  | sra (rd rs1 rs2 : Reg)
  | or (rd rs1 rs2 : Reg)
  | and (rd rs1 rs2 : Reg)
  | mul (rd rs1 rs2 : Reg)
  | div (rd rs1 rs2 : Reg)
  | rem (rd rs1 rs2 : Reg)
  | addi (rd rs1 : Reg) (imm : BitVec 12)
  | andi (rd rs1 : Reg) (imm : BitVec 12)
  | ori (rd rs1 : Reg) (imm : BitVec 12)
  | lb (rd rs1 : Reg) (imm : BitVec 12)
  | lh (rd rs1 : Reg) (imm : BitVec 12)
  | lw (rd rs1 : Reg) (imm : BitVec 12)
  | ld (rd rs1 : Reg) (imm : BitVec 12)
  | lbu (rd rs1 : Reg) (imm : BitVec 12)
  | sb (rs1 rs2 : Reg) (imm : BitVec 12)
  | sh (rs1 rs2 : Reg) (imm : BitVec 12)
  | sw (rs1 rs2 : Reg) (imm : BitVec 12)
  | sd (rs1 rs2 : Reg) (imm : BitVec 12)
  | beq (rs1 rs2 : Reg) (imm : BitVec 13)
  | bne (rs1 rs2 : Reg) (imm : BitVec 13)
  | blt (rs1 rs2 : Reg) (imm : BitVec 13)
  | bge (rs1 rs2 : Reg) (imm : BitVec 13)
  | auipc (rd : Reg) (imm : BitVec 20)
  | lui (rd : Reg) (imm : BitVec 20)
  | jal (rd : Reg) (imm : BitVec 21)
  | jalr (rd rs1 : Reg) (imm : BitVec 12)
  deriving DecidableEq, Repr

/-- The operation identifier, which is also the ALU control code (R15, R34, R123; no numbers, D17). -/
inductive Op where
  | add | sub | sll | slt | xor | srl | sra | or | and | mul | div | rem
  | addi | andi | ori
  | lb | lh | lw | ld | lbu
  | sb | sh | sw | sd
  | beq | bne | blt | bge
  | auipc | lui | jal | jalr
  deriving DecidableEq, Repr

/-- The instruction formats (R15, R83 to R88). -/
inductive Format where
  | R | I | S | SB | U | UJ
  deriving DecidableEq, Repr

/-- The operation of an instruction. -/
def Instr.op : Instr → Op
  | .add _ _ _ => .add
  | .sub _ _ _ => .sub
  | .sll _ _ _ => .sll
  | .slt _ _ _ => .slt
  | .xor _ _ _ => .xor
  | .srl _ _ _ => .srl
  | .sra _ _ _ => .sra
  | .or _ _ _ => .or
  | .and _ _ _ => .and
  | .mul _ _ _ => .mul
  | .div _ _ _ => .div
  | .rem _ _ _ => .rem
  | .addi _ _ _ => .addi
  | .andi _ _ _ => .andi
  | .ori _ _ _ => .ori
  | .lb _ _ _ => .lb
  | .lh _ _ _ => .lh
  | .lw _ _ _ => .lw
  | .ld _ _ _ => .ld
  | .lbu _ _ _ => .lbu
  | .sb _ _ _ => .sb
  | .sh _ _ _ => .sh
  | .sw _ _ _ => .sw
  | .sd _ _ _ => .sd
  | .beq _ _ _ => .beq
  | .bne _ _ _ => .bne
  | .blt _ _ _ => .blt
  | .bge _ _ _ => .bge
  | .auipc _ _ => .auipc
  | .lui _ _ => .lui
  | .jal _ _ => .jal
  | .jalr _ _ _ => .jalr

/-- The format of an operation (R89). -/
def Op.format : Op → Format
  | .add | .sub | .sll | .slt | .xor | .srl | .sra | .or | .and | .mul | .div | .rem => .R
  | .addi | .andi | .ori | .lb | .lh | .lw | .ld | .lbu | .jalr => .I
  | .sb | .sh | .sw | .sd => .S
  | .beq | .bne | .blt | .bge => .SB
  | .auipc | .lui => .U
  | .jal => .UJ

/-- The format of an instruction. -/
def Instr.format (i : Instr) : Format := i.op.format

/-- The register an instruction names as its destination: none for S and SB, which have no write-back (R24, R125). -/
def Instr.dest : Instr → Option Reg
  | .add rd _ _ | .sub rd _ _ | .sll rd _ _ | .slt rd _ _ | .xor rd _ _ | .srl rd _ _ | .sra rd _ _
  | .or rd _ _ | .and rd _ _ | .mul rd _ _ | .div rd _ _ | .rem rd _ _
  | .addi rd _ _ | .andi rd _ _ | .ori rd _ _
  | .lb rd _ _ | .lh rd _ _ | .lw rd _ _ | .ld rd _ _ | .lbu rd _ _
  | .auipc rd _ | .lui rd _ | .jal rd _ | .jalr rd _ _ => some rd
  | .sb _ _ _ | .sh _ _ _ | .sw _ _ _ | .sd _ _ _
  | .beq _ _ _ | .bne _ _ _ | .blt _ _ _ | .bge _ _ _ => none

/-- The registers an instruction reads (R24). -/
def Instr.sources : Instr → List Reg
  | .add _ a b | .sub _ a b | .sll _ a b | .slt _ a b | .xor _ a b | .srl _ a b | .sra _ a b
  | .or _ a b | .and _ a b | .mul _ a b | .div _ a b | .rem _ a b
  | .sb a b _ | .sh a b _ | .sw a b _ | .sd a b _
  | .beq a b _ | .bne a b _ | .blt a b _ | .bge a b _ => [a, b]
  | .addi _ a _ | .andi _ a _ | .ori _ a _
  | .lb _ a _ | .lh _ a _ | .lw _ a _ | .ld _ a _ | .lbu _ a _ | .jalr _ a _ => [a]
  | .auipc _ _ | .lui _ _ | .jal _ _ => []

end Sys2Proof
end

