-- ==== Sys2Proof/WellFormed.lean ====
section
/-! DEFINITION. Which instructions an encoding admits.  Register indices and the I, S and U immediates are well formed
by their types (R82, R91, R92, R94); what is left to check is that SB and UJ offsets are even, since their bit 0 is the
implicit zero and has no place in the word (30_encoding.md rules R93 and R95). -/

namespace Sys2Proof

/-- An SB offset is even (R93: "this is a byte offset, always even"). -/
def branchOffsetOk (imm : BitVec 13) : Bool := !imm.getLsbD 0

/-- A UJ offset is even (R95). -/
def jumpOffsetOk (imm : BitVec 21) : Bool := !imm.getLsbD 0

/-- The instruction has an encoding. -/
def WellFormed : Instr → Bool
  | .beq _ _ imm | .bne _ _ imm | .blt _ _ imm | .bge _ _ imm => branchOffsetOk imm
  | .jal _ imm => jumpOffsetOk imm
  | .add _ _ _ | .sub _ _ _ | .sll _ _ _ | .slt _ _ _ | .xor _ _ _ | .srl _ _ _ | .sra _ _ _
  | .or _ _ _ | .and _ _ _ | .mul _ _ _ | .div _ _ _ | .rem _ _ _
  | .addi _ _ _ | .andi _ _ _ | .ori _ _ _
  | .lb _ _ _ | .lh _ _ _ | .lw _ _ _ | .ld _ _ _ | .lbu _ _ _
  | .sb _ _ _ | .sh _ _ _ | .sw _ _ _ | .sd _ _ _
  | .auipc _ _ | .lui _ _ | .jalr _ _ _ => true

end Sys2Proof
end

