-- ==== Sys2Proof/Decode.lean ====
section
/-! DEFINITION. The decoder (30_encoding.md), total on any word and any bytes, rejecting by name, and the encoder
written from the same table.  The numeric opcodes and function codes and the register field positions are the standard
RISC-V values the spec supplies (R82, R101 to R106, decisions D1 and D2; log 3). -/

namespace Sys2Proof

/-! ### Fields (R81, R82, R122) -/

/-- `inst[6:0]`. -/
def opcodeOf (w : Word) : BitVec 7 := w.extractLsb' 0 7

/-- `inst[14:12]`. -/
def funct3Of (w : Word) : BitVec 3 := w.extractLsb' 12 3

/-- `inst[31:25]`. -/
def funct7Of (w : Word) : BitVec 7 := w.extractLsb' 25 7

/-- A 5-bit field as a register index. -/
def Reg.ofBits (b : BitVec 5) : Reg := ⟨b.toNat, b.isLt⟩

/-- A register index as a 5-bit field. -/
def Reg.bits (r : Reg) : BitVec 5 := ⟨r⟩

/-- `inst[11:7]`. -/
def rdOf (w : Word) : Reg := Reg.ofBits (w.extractLsb' 7 5)

/-- `inst[19:15]`. -/
def rs1Of (w : Word) : Reg := Reg.ofBits (w.extractLsb' 15 5)

/-- `inst[24:20]`. -/
def rs2Of (w : Word) : Reg := Reg.ofBits (w.extractLsb' 20 5)

/-! ### Immediate fields (R84 to R88, R91 to R95) -/

/-- The I field, `inst[31:20]` (R91). -/
def immIOf (w : Word) : BitVec 12 := w.extractLsb' 20 12

/-- The S field, `inst[31:25] ++ inst[11:7]` (R92). -/
def immSOf (w : Word) : BitVec 12 := w.extractLsb' 25 7 ++ w.extractLsb' 7 5

/-- The SB offset, `inst[31] ++ inst[7] ++ inst[30:25] ++ inst[11:8] ++ 0b0` (R93). -/
def immSBOf (w : Word) : BitVec 13 :=
  w.extractLsb' 31 1 ++ w.extractLsb' 7 1 ++ w.extractLsb' 25 6 ++ w.extractLsb' 8 4 ++ 0#1

/-- The U field, `inst[31:12]` (R94). -/
def immUOf (w : Word) : BitVec 20 := w.extractLsb' 12 20

/-- The UJ offset, `inst[31] ++ inst[19:12] ++ inst[20] ++ inst[30:21] ++ 0b0` (R95). -/
def immUJOf (w : Word) : BitVec 21 :=
  w.extractLsb' 31 1 ++ w.extractLsb' 12 8 ++ w.extractLsb' 20 1 ++ w.extractLsb' 21 10 ++ 0#1

/-! ### The table (R100 to R106) -/

/-- One entry of the decode table: its key, where an absent function code is a wildcard, and its format tag (R89,
R100). -/
structure Row where
  op : Op
  format : Format
  opcode : BitVec 7
  funct3 : Option (BitVec 3)
  funct7 : Option (BitVec 7)
  deriving DecidableEq, Repr

/-- The row of an operation (R101 to R106).  The numbers are decision D1 (log 3), the wildcards decision D16 (log 14). -/
def Op.row : Op → Row
  | .add => ⟨.add, .R, 0b0110011#7, some 0b000#3, some 0b0000000#7⟩
  | .sub => ⟨.sub, .R, 0b0110011#7, some 0b000#3, some 0b0100000#7⟩
  | .sll => ⟨.sll, .R, 0b0110011#7, some 0b001#3, some 0b0000000#7⟩
  | .slt => ⟨.slt, .R, 0b0110011#7, some 0b010#3, some 0b0000000#7⟩
  | .xor => ⟨.xor, .R, 0b0110011#7, some 0b100#3, some 0b0000000#7⟩
  | .srl => ⟨.srl, .R, 0b0110011#7, some 0b101#3, some 0b0000000#7⟩
  | .sra => ⟨.sra, .R, 0b0110011#7, some 0b101#3, some 0b0100000#7⟩
  | .or => ⟨.or, .R, 0b0110011#7, some 0b110#3, some 0b0000000#7⟩
  | .and => ⟨.and, .R, 0b0110011#7, some 0b111#3, some 0b0000000#7⟩
  | .mul => ⟨.mul, .R, 0b0110011#7, some 0b000#3, some 0b0000001#7⟩
  | .div => ⟨.div, .R, 0b0110011#7, some 0b100#3, some 0b0000001#7⟩
  | .rem => ⟨.rem, .R, 0b0110011#7, some 0b110#3, some 0b0000001#7⟩
  | .addi => ⟨.addi, .I, 0b0010011#7, some 0b000#3, none⟩
  | .andi => ⟨.andi, .I, 0b0010011#7, some 0b111#3, none⟩
  | .ori => ⟨.ori, .I, 0b0010011#7, some 0b110#3, none⟩
  | .lb => ⟨.lb, .I, 0b0000011#7, some 0b000#3, none⟩
  | .lh => ⟨.lh, .I, 0b0000011#7, some 0b001#3, none⟩
  | .lw => ⟨.lw, .I, 0b0000011#7, some 0b010#3, none⟩
  | .ld => ⟨.ld, .I, 0b0000011#7, some 0b011#3, none⟩
  | .lbu => ⟨.lbu, .I, 0b0000011#7, some 0b100#3, none⟩
  | .sb => ⟨.sb, .S, 0b0100011#7, some 0b000#3, none⟩
  | .sh => ⟨.sh, .S, 0b0100011#7, some 0b001#3, none⟩
  | .sw => ⟨.sw, .S, 0b0100011#7, some 0b010#3, none⟩
  | .sd => ⟨.sd, .S, 0b0100011#7, some 0b011#3, none⟩
  | .beq => ⟨.beq, .SB, 0b1100011#7, some 0b000#3, none⟩
  | .bne => ⟨.bne, .SB, 0b1100011#7, some 0b001#3, none⟩
  | .blt => ⟨.blt, .SB, 0b1100011#7, some 0b100#3, none⟩
  | .bge => ⟨.bge, .SB, 0b1100011#7, some 0b101#3, none⟩
  | .auipc => ⟨.auipc, .U, 0b0010111#7, none, none⟩
  | .lui => ⟨.lui, .U, 0b0110111#7, none, none⟩
  | .jal => ⟨.jal, .UJ, 0b1101111#7, none, none⟩
  | .jalr => ⟨.jalr, .I, 0b1100111#7, some 0b000#3, none⟩

/-- The operations of rule R2, in the order of opcode_table.json. -/
def Op.all : List Op :=
  [.add, .sub, .sll, .slt, .xor, .srl, .sra, .or, .and, .mul, .div, .rem, .addi, .andi, .ori,
    .lb, .lh, .lw, .ld, .lbu, .sb, .sh, .sw, .sd, .beq, .bne, .blt, .bge, .auipc, .lui, .jal, .jalr]

/-- The decode table. -/
def decodeTable : List Row := Op.all.map Op.row

/-- The row with exactly this key, wildcards included. -/
def findRow (opcode : BitVec 7) (funct3 : Option (BitVec 3)) (funct7 : Option (BitVec 7)) : Option Row :=
  decodeTable.find? fun r => r.opcode == opcode && r.funct3 == funct3 && r.funct7 == funct7

/-- The three-level lookup of R100: exact match, then wildcard on funct7, then wildcard on both. -/
def lookup (opcode : BitVec 7) (funct3 : BitVec 3) (funct7 : BitVec 7) : Option Row :=
  match findRow opcode (some funct3) (some funct7) with
  | some r => some r
  | none =>
    match findRow opcode (some funct3) none with
    | some r => some r
    | none => findRow opcode none none

/-- The bits a row constrains, as a mask (R100: 0xFE00707F, 0x0000707F or 0x0000007F). -/
def Row.mask (r : Row) : Word :=
  (match r.funct7 with | some _ => 0xFE000000#32 | none => 0#32) |||
  (match r.funct3 with | some _ => 0x00007000#32 | none => 0#32) ||| 0x0000007F#32

/-- The value of the constrained bits, the "match" of R101 to R106. -/
def Row.pattern (r : Row) : Word :=
  (r.funct7.getD 0#7).setWidth 32 <<< 25 ||| (r.funct3.getD 0#3).setWidth 32 <<< 12 ||| r.opcode.setWidth 32

/-- A word matches a row, in the mask form of R100. -/
abbrev Row.Matches (r : Row) (w : Word) : Prop := w &&& r.mask = r.pattern

/-! ### Decoding (R107, R108, R122 to R124) -/

/-- Why a word is no instruction.  The step turns each into its stop condition (R261, R262). -/
inductive Reject where
  /-- The all-zero word, the termination sentinel (R107). -/
  | haltWord
  /-- A non-zero word outside the table, "unidentifiable machine code" (R108). -/
  | unidentifiable (w : Word)
  deriving DecidableEq, Repr

/-- Why a byte sequence holds no instruction. -/
inductive BytesReject where
  /-- The first four bytes are no instruction. -/
  | word (r : Reject)
  /-- Fewer than four bytes; the fetch itself always reads four (R80). -/
  | tooFewBytes
  deriving DecidableEq, Repr

/-- The instruction of an operation with the operand fields of a word (R122, R124). -/
def build (op : Op) (w : Word) : Instr :=
  match op with
  | .add => .add (rdOf w) (rs1Of w) (rs2Of w)
  | .sub => .sub (rdOf w) (rs1Of w) (rs2Of w)
  | .sll => .sll (rdOf w) (rs1Of w) (rs2Of w)
  | .slt => .slt (rdOf w) (rs1Of w) (rs2Of w)
  | .xor => .xor (rdOf w) (rs1Of w) (rs2Of w)
  | .srl => .srl (rdOf w) (rs1Of w) (rs2Of w)
  | .sra => .sra (rdOf w) (rs1Of w) (rs2Of w)
  | .or => .or (rdOf w) (rs1Of w) (rs2Of w)
  | .and => .and (rdOf w) (rs1Of w) (rs2Of w)
  | .mul => .mul (rdOf w) (rs1Of w) (rs2Of w)
  | .div => .div (rdOf w) (rs1Of w) (rs2Of w)
  | .rem => .rem (rdOf w) (rs1Of w) (rs2Of w)
  | .addi => .addi (rdOf w) (rs1Of w) (immIOf w)
  | .andi => .andi (rdOf w) (rs1Of w) (immIOf w)
  | .ori => .ori (rdOf w) (rs1Of w) (immIOf w)
  | .lb => .lb (rdOf w) (rs1Of w) (immIOf w)
  | .lh => .lh (rdOf w) (rs1Of w) (immIOf w)
  | .lw => .lw (rdOf w) (rs1Of w) (immIOf w)
  | .ld => .ld (rdOf w) (rs1Of w) (immIOf w)
  | .lbu => .lbu (rdOf w) (rs1Of w) (immIOf w)
  | .sb => .sb (rs1Of w) (rs2Of w) (immSOf w)
  | .sh => .sh (rs1Of w) (rs2Of w) (immSOf w)
  | .sw => .sw (rs1Of w) (rs2Of w) (immSOf w)
  | .sd => .sd (rs1Of w) (rs2Of w) (immSOf w)
  | .beq => .beq (rs1Of w) (rs2Of w) (immSBOf w)
  | .bne => .bne (rs1Of w) (rs2Of w) (immSBOf w)
  | .blt => .blt (rs1Of w) (rs2Of w) (immSBOf w)
  | .bge => .bge (rs1Of w) (rs2Of w) (immSBOf w)
  | .auipc => .auipc (rdOf w) (immUOf w)
  | .lui => .lui (rdOf w) (immUOf w)
  | .jal => .jal (rdOf w) (immUJOf w)
  | .jalr => .jalr (rdOf w) (rs1Of w) (immIOf w)

/-- The instruction a word stands for, or why it stands for none.  The halt test comes before the lookup (R107,
conflict C10). -/
def decode (w : Word) : Except Reject Instr :=
  if w = Config.haltWord then .error .haltWord
  else
    match lookup (opcodeOf w) (funct3Of w) (funct7Of w) with
    | some r => .ok (build r.op w)
    | none => .error (.unidentifiable w)

/-- Four bytes as a word, the first the least significant (R55). -/
def wordOfBytes (b0 b1 b2 b3 : Byte) : Word := b3 ++ b2 ++ b1 ++ b0

/-- Decoding from a byte sequence: the instruction of its first four bytes, and the rest. -/
def decodeBytes : List Byte → Except BytesReject (Instr × List Byte)
  | b0 :: b1 :: b2 :: b3 :: rest =>
    match decode (wordOfBytes b0 b1 b2 b3) with
    | .ok i => .ok (i, rest)
    | .error r => .error (.word r)
  | [] | [_] | [_, _] | [_, _, _] => .error .tooFewBytes

/-- The word of a table row whose `nbits` bits are `w`, every higher bit 0. -/
def tableWord (nbits w : Nat) : Word := BitVec.ofNat 32 (w % 2 ^ nbits)

/-- The four bytes of a word, least significant first (R54). -/
def bytesOfWord (w : Word) : List Byte :=
  [w.extractLsb' 0 8, w.extractLsb' 8 8, w.extractLsb' 16 8, w.extractLsb' 24 8]

/-- What the decoder reads from the bytes of a table word laid out in memory order. -/
def decodeTableWord (nbits w : Nat) : Option Instr :=
  match decodeBytes (bytesOfWord (tableWord nbits w)) with
  | .ok (i, _) => some i
  | .error _ => none

/-! ### Encoding (R83 to R88) -/

/-- The funct3 bits of a row (read only where the row has them). -/
def Row.f3 (r : Row) : BitVec 3 := r.funct3.getD 0#3

/-- The funct7 bits of a row (read only where the row has them). -/
def Row.f7 (r : Row) : BitVec 7 := r.funct7.getD 0#7

/-- R: funct7, rs2, rs1, funct3, rd, opcode (R83). -/
def encodeR (r : Row) (rd rs1 rs2 : Reg) : Word :=
  r.f7 ++ Reg.bits rs2 ++ Reg.bits rs1 ++ r.f3 ++ Reg.bits rd ++ r.opcode

/-- I: imm[11:0], rs1, funct3, rd, opcode (R84). -/
def encodeI (r : Row) (rd rs1 : Reg) (imm : BitVec 12) : Word :=
  imm ++ Reg.bits rs1 ++ r.f3 ++ Reg.bits rd ++ r.opcode

/-- S: imm[11:5], rs2, rs1, funct3, imm[4:0], opcode (R85). -/
def encodeS (r : Row) (rs1 rs2 : Reg) (imm : BitVec 12) : Word :=
  imm.extractLsb' 5 7 ++ Reg.bits rs2 ++ Reg.bits rs1 ++ r.f3 ++ imm.extractLsb' 0 5 ++ r.opcode

/-- SB: imm[12], imm[10:5], rs2, rs1, funct3, imm[4:1], imm[11], opcode (R86). -/
def encodeSB (r : Row) (rs1 rs2 : Reg) (imm : BitVec 13) : Word :=
  imm.extractLsb' 12 1 ++ imm.extractLsb' 5 6 ++ Reg.bits rs2 ++ Reg.bits rs1 ++ r.f3 ++
    imm.extractLsb' 1 4 ++ imm.extractLsb' 11 1 ++ r.opcode

/-- U: imm[31:12], rd, opcode (R87). -/
def encodeU (r : Row) (rd : Reg) (imm : BitVec 20) : Word :=
  imm ++ Reg.bits rd ++ r.opcode

/-- UJ: imm[20], imm[10:1], imm[11], imm[19:12], rd, opcode (R88). -/
def encodeUJ (r : Row) (rd : Reg) (imm : BitVec 21) : Word :=
  imm.extractLsb' 20 1 ++ imm.extractLsb' 1 10 ++ imm.extractLsb' 11 1 ++ imm.extractLsb' 12 8 ++
    Reg.bits rd ++ r.opcode

/-- The word of a well-formed instruction. -/
def encode (i : Instr) : Word :=
  match i with
  | .add rd rs1 rs2 | .sub rd rs1 rs2 | .sll rd rs1 rs2 | .slt rd rs1 rs2 | .xor rd rs1 rs2 | .srl rd rs1 rs2
  | .sra rd rs1 rs2 | .or rd rs1 rs2 | .and rd rs1 rs2 | .mul rd rs1 rs2 | .div rd rs1 rs2
  | .rem rd rs1 rs2 => encodeR i.op.row rd rs1 rs2
  | .addi rd rs1 imm | .andi rd rs1 imm | .ori rd rs1 imm | .lb rd rs1 imm | .lh rd rs1 imm | .lw rd rs1 imm
  | .ld rd rs1 imm | .lbu rd rs1 imm | .jalr rd rs1 imm => encodeI i.op.row rd rs1 imm
  | .sb rs1 rs2 imm | .sh rs1 rs2 imm | .sw rs1 rs2 imm | .sd rs1 rs2 imm => encodeS i.op.row rs1 rs2 imm
  | .beq rs1 rs2 imm | .bne rs1 rs2 imm | .blt rs1 rs2 imm | .bge rs1 rs2 imm => encodeSB i.op.row rs1 rs2 imm
  | .auipc rd imm | .lui rd imm => encodeU i.op.row rd imm
  | .jal rd imm => encodeUJ i.op.row rd imm

end Sys2Proof
end

