-- ==== Sys2Proof/Machine/State.lean ====
section
/-! DEFINITION. The whole persistent state of the core (10_state.md rule R20: "exactly the five items"), the stop
reasons, the model's fault and refusal, and the state after reset (rule R39). -/

namespace Sys2Proof.Machine

/-- The execute errors (60_exceptions.md rules R263, R264). -/
inductive ExecuteError where
  | divideByZero
  | negativeShift
  deriving DecidableEq, Repr

/-- The condition that set the Termination Flag (R20, R30, R260; no numeric codes, decision D14). -/
inductive StopReason where
  | halt
  | decodeError (inst : Word)
  | executeError (e : ExecuteError)
  deriving DecidableEq, Repr

/-- Why the machine cannot take a step.  The four stop conditions of R260 are no faults of the model: raising one is a
transition the spec describes (R265, R272), so it is a next state. -/
inductive Fault where
  /-- Raised by `step` alone, in a state whose Termination Flag is set: "no fetch, no state change" (R152).  Safe: the
  model stops where the core has stopped (log 1). -/
  | terminated
  deriving DecidableEq, Repr

/-- Why an instruction has no meaning in the model. -/
inductive Refusal where
  /-- An instruction without a meaning, by its mnemonic.  Raised by no arm of `exec`: every row has its meaning.
  Safe. -/
  | notModelled (mnemonic : String)
  deriving DecidableEq, Repr

/-- The byte values of memory: the bytes that differ from what an unlisted address reads as, by rising address. -/
abbrev Memory := List Host.Cell

/-- The persistent state (R20).

* `x`: the register file, 32 slots of 32 bits; slot 0 is the storage behind the constant `x[0]` (R21, R22, log 12).
* `pc`: unsigned 32-bit byte address (R25).
* `mem`: the byte values of the memory map (R33, log 11).
* `written`: the addresses the map holds, the written marks, by rising address (R33, R51, log 11).
* `terminated`: the Termination Flag (R30).
* `stopReason`: the condition that set it, none before (R30, R39).
* `cycles`: the cycle counter, a natural number that never wraps (R31, log 15). -/
structure State where
  x : Vector Word 32
  pc : Word
  mem : Memory
  written : List Nat
  terminated : Bool
  stopReason : Option StopReason
  cycles : Nat
  deriving DecidableEq, Repr

/-- The register file after reset: 0 but for `x[2]` and `x[3]` (R39). -/
def resetRegs : Vector Word 32 := ((Vector.replicate 32 (0 : Word)).set 2 Config.resetX2).set 3 Config.resetX3

/-- The machine right after reset (R39, R300), before any image load. -/
def State.reset : State where
  x := resetRegs
  pc := Config.resetPc
  mem := []
  written := []
  terminated := false
  stopReason := none
  cycles := 0

/-- The run loop's two states (R30, R150). -/
inductive RunState where
  | running
  | terminated
  deriving DecidableEq, Repr

/-- The run loop's state is the Termination Flag (R30). -/
def State.runState (s : State) : RunState := if s.terminated then .terminated else .running

end Sys2Proof.Machine
end

