-- ==== Sys2Proof/Machine/Ops.lean ====
section
/-! DEFINITION. The named operations over registers and memory (00_scope.md rules R11 to R13, 20_memory.md rules R50 to
R53), the fetch, raising a stop condition, completing an instruction, and the form every state is meant to keep. -/

namespace Sys2Proof.Machine

/-- What one instruction, or one step, answers. -/
abbrev Result := Host.Outcome State Fault Refusal

/-! ### Registers (R11, R21, R22) -/

/-- `x[r]`: 0 for register 0 whatever is stored there, else the stored value (R21). -/
def State.readReg (s : State) (r : Reg) : Word :=
  if r = 0 then 0#32 else s.x.get r

/-- `x[r] <- v`: dropped for register 0 (R22). -/
def State.writeReg (s : State) (r : Reg) (v : Word) : State :=
  if r = 0 then s else { s with x := s.x.set r.val v r.isLt }

/-! ### The memory list -/

/-- What an address reads as that nothing has written (R50: "0 if unset"). -/
def Memory.unlisted : Byte := 0#8

/-- The byte at a key of the memory list. -/
def Memory.read : Memory → Nat → Byte
  | [], _ => Memory.unlisted
  | (k, b) :: m, a => if k = a then b else Memory.read m a

/-- The memory list without the entries at a key. -/
def Memory.erase (m : Memory) (a : Nat) : Memory := m.filter fun c => c.1 ≠ a

/-- An entry put in front of the first larger key. -/
def Memory.insert : Memory → Nat → Byte → Memory
  | [], a, v => [(a, v)]
  | c :: m, a, v => if a < c.1 then (a, v) :: c :: m else c :: Memory.insert m a v

/-- The memory list with one byte set, in canonical form again: a byte equal to `unlisted` is not listed. -/
def Memory.write (m : Memory) (a : Nat) (v : Byte) : Memory :=
  if v = Memory.unlisted then Memory.erase m a else Memory.insert (Memory.erase m a) a v

/-- The canonical form: keys strictly rising and below 2^32, no entry equal to what an unlisted address reads as. -/
abbrev Memory.wf (m : Memory) : Prop :=
  m.Pairwise (fun c d => c.1 < d.1) ∧ ∀ c ∈ m, c.1 < 2 ^ 32 ∧ c.2 ≠ Memory.unlisted

/-- An address is among the written ones. -/
def Marks.has (w : List Nat) (a : Nat) : Bool := decide (a ∈ w)

/-- Mark one address written, keeping the list sorted and without repeats. -/
def Marks.add : List Nat → Nat → List Nat
  | [], a => [a]
  | k :: w, a => if a < k then a :: k :: w else if a = k then k :: w else k :: Marks.add w a

/-- The form of the written marks: strictly rising addresses below 2^32. -/
abbrev Marks.wf (w : List Nat) : Prop :=
  w.Pairwise (· < ·) ∧ ∀ a ∈ w, a < 2 ^ 32

/-! ### Byte and wider accesses (R12, R50 to R53) -/

/-- `read_byte(addr)` (R50). -/
def State.readByte (s : State) (a : Word) : Byte := Memory.read s.mem a.toNat

/-- The address has been written (R33). -/
def State.isWritten (s : State) (a : Word) : Bool := Marks.has s.written a.toNat

/-- `write_byte(addr, b)`: sets the byte and marks it written (R51). -/
def State.writeByte (s : State) (a : Word) (b : Byte) : State :=
  { s with mem := Memory.write s.mem a.toNat b, written := Marks.add s.written a.toNat }

/-- `MemRead(addr, n)`: little-endian, each address modulo 2^32 (R52, R61). -/
def State.memRead (s : State) (a : Word) : (n : Nat) → BitVec (8 * n)
  | 0 => 0#0
  | n + 1 => State.memRead s (a + 1#32) n ++ s.readByte a

/-- `MemWrite(addr, n, v)`: little-endian, each address modulo 2^32 (R53, R61). -/
def State.memWrite (s : State) (a : Word) : (n : Nat) → BitVec (8 * n) → State
  | 0, _ => s
  | n + 1, v => State.memWrite (s.writeByte a (v.extractLsb' 0 8)) (a + 1#32) n (v.extractLsb' 8 (8 * n))

/-! ### Control (R13) -/

/-- Stage F's word: `MemRead(pc, 4)` (R121). -/
def State.fetch (s : State) : Word := s.memRead s.pc 4

/-- `raise`: sets the Termination Flag and the stop reason and nothing else (R13, R265, R272).  This is the core's only
exceptional entry; there is no return from it (R273). -/
def State.raise (s : State) (r : StopReason) : State :=
  { s with terminated := true, stopReason := some r }

/-- The end of a completed instruction: the new `pc` (stage M, R138) and one more cycle (R150, R31). -/
def State.retire (s : State) (pc' : Word) : State :=
  { s with pc := pc', cycles := s.cycles + 1 }

/-- The sequential next address, modulo 2^32 (R26, R138). -/
def State.nextPc (s : State) : Word := s.pc + 4#32

/-- Stop with a condition: the only outcome of an instruction that does not complete. -/
def stopWith (r : StopReason) (s : State) : Result := .next (s.raise r)

/-- The condition a rejected word raises: `Halt` in stage F, `DecodeError(inst)` in stage D (R121, R123). -/
def rejectReason : Reject → StopReason
  | .haltWord => .halt
  | .unidentifiable w => .decodeError w

/-- Complete by writing `v` to `rd` (stage W, R140) and going on at `pc'`. -/
def completeTo (rd : Reg) (v : Word) (pc' : Word) (s : State) : Result :=
  .next ((s.writeReg rd v).retire pc')

/-- Complete by writing `v` to `rd` and going on sequentially. -/
def complete (rd : Reg) (v : Word) (s : State) : Result := completeTo rd v s.nextPc s

/-- Complete by storing `n` bytes of `v` at `ea` (stage M, R137) and going on sequentially. -/
def completeStore (ea : Word) (n : Nat) (v : BitVec (8 * n)) (s : State) : Result :=
  .next ((s.memWrite ea n v).retire s.nextPc)

/-- Complete a branch: to the target when taken, else sequentially (R230). -/
def completeBranch (taken : Bool) (target : Word) (s : State) : Result :=
  .next (s.retire (if taken then target else s.nextPc))

/-! ### The form of a state -/

/-- What every step keeps: memory and marks in canonical form, a listed byte is a written one, the storage behind
`x[0]` is 0 (conflict C11), and a stop reason exactly when terminated (R30). -/
abbrev State.wf (s : State) : Prop :=
  Memory.wf s.mem ∧ Marks.wf s.written ∧ (∀ c ∈ s.mem, c.1 ∈ s.written) ∧ s.x.get 0 = 0#32 ∧
    s.terminated = s.stopReason.isSome

end Sys2Proof.Machine
end

