-- ==== Sys2Proof/Machine/Flags.lean ====
section
/-! DEFINITION. The core has no flags and no condition codes (10_state.md rule R28); what it has instead are the
conditions computed within one instruction: the comparisons of `slt` and the branches, and the two tests of stage X
that raise an execute error. -/

namespace Sys2Proof.Machine

/-- `a == b`, all 32 bits (R231). -/
def isEqual (a b : Word) : Bool := a == b

/-- `signed(a) < signed(b)` (R164, R233; decision D21). -/
def isLess (a b : Word) : Bool := decide (a.toInt < b.toInt)

/-- "a negative shift amount (i.e., operand2 decoded as negative)": `signed(b) < 0` (R163, R264). -/
def isNegative (b : Word) : Bool := decide (b.toInt < 0)

/-- The divisor test (R182, R183, R263). -/
def isZero (b : Word) : Bool := b == 0#32

/-- A condition as a register value: "`slt` yields 1/0" (R164). -/
def conditionWord (c : Bool) : Word := if c then 1#32 else 0#32

end Sys2Proof.Machine
end

