-- ==== Sys2Proof/Machine/Alu.lean ====
section
/-! DEFINITION. The arithmetic of stage X: operands to integers, an exact result, then `trunc32` (00_scope.md rule R9,
40_pipeline.md rule R131). -/

namespace Sys2Proof.Machine

/-- The 32-bit vector whose unsigned value is `z mod 2^32` (R9). -/
def trunc32 (z : Int) : Word := BitVec.ofInt 32 z

/-- `trunc32(a + b)` (R161, R191). -/
def aluAdd (a b : Word) : Word := trunc32 (a.toInt + b.toInt)

/-- `trunc32(a - b)` (R162). -/
def aluSub (a b : Word) : Word := trunc32 (a.toInt - b.toInt)

/-- Bitwise AND (R169, R192). -/
def aluAnd (a b : Word) : Word := a &&& b

/-- Bitwise OR (R168, R193). -/
def aluOr (a b : Word) : Word := a ||| b

/-- Bitwise XOR (R165). -/
def aluXor (a b : Word) : Word := a ^^^ b

/-- Set if less than, signed (R164). -/
def aluSlt (a b : Word) : Word := conditionWord (isLess a b)

/-- The amount of a shift whose operand2 is not negative (R163, R170, D5): all of it, or its low five bits under the
alternative. -/
def shiftAmount (mode : Config.ShiftAmountMode) (b : Word) : Nat :=
  match mode with
  | .full => b.toNat
  | .mask5 => b.toNat % 32

/-- `a << s` with zeros entering for `s <= 31`, 0 for `s >= 32` (R163). -/
def shiftLeft (a : Word) (s : Nat) : Word := if s < 32 then a <<< s else 0#32

/-- `a >> s` with zeros entering for `s <= 31`, 0 for `s >= 32` (R166, D22). -/
def shiftRightLogical (a : Word) (s : Nat) : Word := if s < 32 then a >>> s else 0#32

/-- `a >> s` with copies of `a[31]` entering for `s <= 31`, the sign fill for `s >= 32` (R167). -/
def shiftRightArith (a : Word) (s : Nat) : Word :=
  if s < 32 then a.sshiftRight s else if a.msb then 0xFFFFFFFF#32 else 0#32

/-- The low 32 bits of the signed product (R181). -/
def aluMul (a b : Word) : Word := trunc32 (a.toInt * b.toInt)

/-- The integer quotient by a divisor that is not 0: toward zero, or the floor under the alternative (R182, D6). -/
def quotient (mode : Config.DivRounding) (a b : Int) : Int :=
  match mode with
  | .trunc => a.tdiv b
  | .floor => a.fdiv b

/-- `signed(a) - q * signed(b)` (R183). -/
def remainder (mode : Config.DivRounding) (a b : Int) : Int := a - quotient mode a b * b

/-- `trunc32(q)` (R182). -/
def aluDiv (a b : Word) : Word := trunc32 (quotient Config.divRounding a.toInt b.toInt)

/-- `trunc32(signed(a) - q * signed(b))` (R183). -/
def aluRem (a b : Word) : Word := trunc32 (remainder Config.divRounding a.toInt b.toInt)

end Sys2Proof.Machine
end

