-- ==== Sys2Proof/Machine/Operands.lean ====
section
/-! DEFINITION. The operand forms: a register value, or the 32-bit immediate of the format, and the one memory
addressing mode (30_encoding.md rules R90 to R96), with the extension of a loaded value and the bytes a store takes
(20_memory.md rule R59). -/

namespace Sys2Proof.Machine

/-- `sext_32` of an immediate field of any width (R10, R91, R92, R93, R95). -/
def sext {n : Nat} (imm : BitVec n) : Word := imm.signExtend 32

/-- The U immediate: the 20-bit field shifted left 12 bits (R94). -/
def upperImm (imm : BitVec 20) : Word := imm ++ 0#12

/-- The immediate an instruction delivers to stage X as a 32-bit value (R90).  R has none (R90, D28); the 0 there is the
model's choice and nothing reads it (DESIGN CHOICE, log 18). -/
def immediate : Instr → Word
  | .add _ _ _ | .sub _ _ _ | .sll _ _ _ | .slt _ _ _ | .xor _ _ _ | .srl _ _ _ | .sra _ _ _ | .or _ _ _
  | .and _ _ _ | .mul _ _ _ | .div _ _ _ | .rem _ _ _ => 0#32
  | .addi _ _ imm | .andi _ _ imm | .ori _ _ imm | .lb _ _ imm | .lh _ _ imm | .lw _ _ imm | .ld _ _ imm
  | .lbu _ _ imm | .jalr _ _ imm => sext imm
  | .sb _ _ imm | .sh _ _ imm | .sw _ _ imm | .sd _ _ imm => sext imm
  | .beq _ _ imm | .bne _ _ imm | .blt _ _ imm | .bge _ _ imm => sext imm
  | .auipc _ imm | .lui _ imm => upperImm imm
  | .jal _ imm => sext imm

/-- The effective address `trunc32(x[rs1] + imm)` of a load or a store (R200, R215). -/
def effectiveAddress (s : State) (rs1 : Reg) (imm : BitVec 12) : Word := s.readReg rs1 + sext imm

/-- A PC-relative target, modulo 2^32 (R138, R230, R248). -/
def relativeTarget {n : Nat} (s : State) (imm : BitVec n) : Word := s.pc + sext imm

/-- The target of `jalr`: the sum as it is, or with bit 0 cleared under the alternative (R249, D10). -/
def jalrTarget (clearBit0 : Bool) (base : Word) (imm : BitVec 12) : Word :=
  if clearBit0 then (base + sext imm) &&& 0xFFFFFFFE#32 else base + sext imm

/-- The doubleword a store of 32 bits writes: `zext_64`, "zero-padding missing high bytes" (R137, R219). -/
def padDouble (v : Word) : BitVec (8 * 8) := v.setWidth 64

/-- What a doubleword load keeps: `v[31:0]` (R136, R204, D4). -/
def lowWord (v : BitVec (8 * 8)) : Word := v.extractLsb' 0 32

end Sys2Proof.Machine
end

