-- ==== Sys2Proof/Machine/AluImmediate.lean ====
section
/-! DEFINITION. Register-immediate arithmetic and logic (43_alu_immediate.md). -/

namespace Sys2Proof.Machine

/-- The frame of R190: the immediate is sign-extended for all three operations and travels as operand2. -/
def executeI (f : Word → Word → Word) (rd rs1 : Reg) (imm : BitVec 12) (s : State) : Result :=
  complete rd (f (s.readReg rs1) (sext imm)) s

/-- R191. -/
def execAddi (rd rs1 : Reg) (imm : BitVec 12) (s : State) : Result := executeI aluAdd rd rs1 imm s

/-- R192. -/
def execAndi (rd rs1 : Reg) (imm : BitVec 12) (s : State) : Result := executeI aluAnd rd rs1 imm s

/-- R193. -/
def execOri (rd rs1 : Reg) (imm : BitVec 12) (s : State) : Result := executeI aluOr rd rs1 imm s

end Sys2Proof.Machine
end

