-- ==== Sys2Proof/Machine/AluRegister.lean ====
section
/-! DEFINITION. Register-register arithmetic, logic, shift and compare (41_alu_register.md). -/

namespace Sys2Proof.Machine

/-- The frame of R160: both sources, the result to `rd`, `pc + 4`. -/
def executeR (f : Word → Word → Word) (rd rs1 rs2 : Reg) (s : State) : Result :=
  complete rd (f (s.readReg rs1) (s.readReg rs2)) s

/-- The frame of the three shifts: a negative amount stops the core before any write (R163, R264). -/
def executeShift (f : Word → Nat → Word) (rd rs1 rs2 : Reg) (s : State) : Result :=
  if isNegative (s.readReg rs2) then stopWith (.executeError .negativeShift) s
  else complete rd (f (s.readReg rs1) (shiftAmount Config.shiftAmountMode (s.readReg rs2))) s

/-- R161. -/
def execAdd (rd rs1 rs2 : Reg) (s : State) : Result := executeR aluAdd rd rs1 rs2 s

/-- R162. -/
def execSub (rd rs1 rs2 : Reg) (s : State) : Result := executeR aluSub rd rs1 rs2 s

/-- R163. -/
def execSll (rd rs1 rs2 : Reg) (s : State) : Result := executeShift shiftLeft rd rs1 rs2 s

/-- R164. -/
def execSlt (rd rs1 rs2 : Reg) (s : State) : Result := executeR aluSlt rd rs1 rs2 s

/-- R165. -/
def execXor (rd rs1 rs2 : Reg) (s : State) : Result := executeR aluXor rd rs1 rs2 s

/-- R166. -/
def execSrl (rd rs1 rs2 : Reg) (s : State) : Result := executeShift shiftRightLogical rd rs1 rs2 s

/-- R167. -/
def execSra (rd rs1 rs2 : Reg) (s : State) : Result := executeShift shiftRightArith rd rs1 rs2 s

/-- R168. -/
def execOr (rd rs1 rs2 : Reg) (s : State) : Result := executeR aluOr rd rs1 rs2 s

/-- R169. -/
def execAnd (rd rs1 rs2 : Reg) (s : State) : Result := executeR aluAnd rd rs1 rs2 s

end Sys2Proof.Machine
end

