-- ==== Sys2Proof/Machine/Branches.lean ====
section
/-! DEFINITION. Conditional branches (46_branches.md): no alignment check, no delay slot (R230). -/

namespace Sys2Proof.Machine

/-- R231: taken when the operands are equal. -/
def execBeq (rs1 rs2 : Reg) (imm : BitVec 13) (s : State) : Result :=
  completeBranch (isEqual (s.readReg rs1) (s.readReg rs2)) (relativeTarget s imm) s

/-- R232: taken when they differ. -/
def execBne (rs1 rs2 : Reg) (imm : BitVec 13) (s : State) : Result :=
  completeBranch (!isEqual (s.readReg rs1) (s.readReg rs2)) (relativeTarget s imm) s

/-- R233: taken when the first is less, signed. -/
def execBlt (rs1 rs2 : Reg) (imm : BitVec 13) (s : State) : Result :=
  completeBranch (isLess (s.readReg rs1) (s.readReg rs2)) (relativeTarget s imm) s

/-- R234: the exact negation of `blt`. -/
def execBge (rs1 rs2 : Reg) (imm : BitVec 13) (s : State) : Result :=
  completeBranch (!isLess (s.readReg rs1) (s.readReg rs2)) (relativeTarget s imm) s

end Sys2Proof.Machine
end

