-- ==== Sys2Proof/Machine/Loads.lean ====
section
/-! DEFINITION. Loads (44_loads.md): stage M reads at the effective address, stage W writes the extended value. -/

namespace Sys2Proof.Machine

/-- R201: one byte, sign-extended. -/
def execLb (rd rs1 : Reg) (imm : BitVec 12) (s : State) : Result :=
  complete rd ((s.memRead (effectiveAddress s rs1 imm) 1).signExtend 32) s

/-- R202: two bytes, sign-extended. -/
def execLh (rd rs1 : Reg) (imm : BitVec 12) (s : State) : Result :=
  complete rd ((s.memRead (effectiveAddress s rs1 imm) 2).signExtend 32) s

/-- R203: four bytes. -/
def execLw (rd rs1 : Reg) (imm : BitVec 12) (s : State) : Result :=
  complete rd (s.memRead (effectiveAddress s rs1 imm) 4) s

/-- R204: eight bytes are read, the low 32 bits kept. -/
def execLd (rd rs1 : Reg) (imm : BitVec 12) (s : State) : Result :=
  complete rd (lowWord (s.memRead (effectiveAddress s rs1 imm) 8)) s

/-- R205: one byte, zero-extended. -/
def execLbu (rd rs1 : Reg) (imm : BitVec 12) (s : State) : Result :=
  complete rd ((s.memRead (effectiveAddress s rs1 imm) 1).setWidth 32) s

end Sys2Proof.Machine
end

