-- ==== Sys2Proof/Machine/MulDiv.lean ====
section
/-! DEFINITION. Multiply, divide and remainder (42_muldiv.md). -/

namespace Sys2Proof.Machine

/-- The frame of `div` and `rem`: a zero divisor stops the core before any write, even when `rd` is 0 (R182, R183,
R263). -/
def executeDivision (f : Word → Word → Word) (rd rs1 rs2 : Reg) (s : State) : Result :=
  if isZero (s.readReg rs2) then stopWith (.executeError .divideByZero) s
  else complete rd (f (s.readReg rs1) (s.readReg rs2)) s

/-- R181. -/
def execMul (rd rs1 rs2 : Reg) (s : State) : Result :=
  complete rd (aluMul (s.readReg rs1) (s.readReg rs2)) s

/-- R182. -/
def execDiv (rd rs1 rs2 : Reg) (s : State) : Result := executeDivision aluDiv rd rs1 rs2 s

/-- R183. -/
def execRem (rd rs1 rs2 : Reg) (s : State) : Result := executeDivision aluRem rd rs1 rs2 s

end Sys2Proof.Machine
end

