-- ==== Sys2Proof/Machine/Stores.lean ====
section
/-! DEFINITION. Stores (45_stores.md): stage M writes the low bytes of `x[rs2]` at the effective address. -/

namespace Sys2Proof.Machine

/-- R216: `x[rs2][7:0]`. -/
def execSb (rs1 rs2 : Reg) (imm : BitVec 12) (s : State) : Result :=
  completeStore (effectiveAddress s rs1 imm) 1 ((s.readReg rs2).extractLsb' 0 8) s

/-- R217: `x[rs2][15:0]`. -/
def execSh (rs1 rs2 : Reg) (imm : BitVec 12) (s : State) : Result :=
  completeStore (effectiveAddress s rs1 imm) 2 ((s.readReg rs2).extractLsb' 0 16) s

/-- R218: `x[rs2]`. -/
def execSw (rs1 rs2 : Reg) (imm : BitVec 12) (s : State) : Result :=
  completeStore (effectiveAddress s rs1 imm) 4 (s.readReg rs2) s

/-- R219: `zext_64(x[rs2])`. -/
def execSd (rs1 rs2 : Reg) (imm : BitVec 12) (s : State) : Result :=
  completeStore (effectiveAddress s rs1 imm) 8 (padDouble (s.readReg rs2)) s

end Sys2Proof.Machine
end

