-- ==== Sys2Proof/Machine/UpperJumps.lean ====
section
/-! DEFINITION. Upper-immediate and jump instructions (47_upper_and_jumps.md). -/

namespace Sys2Proof.Machine

/-- R246: `pc + 4 + imm`, the core's own formula with its bias of 4 (conflict C2, D12). -/
def execAuipc (rd : Reg) (imm : BitVec 20) (s : State) : Result :=
  complete rd (s.pc + Config.auipcBias + upperImm imm) s

/-- R247: the shifted immediate. -/
def execLui (rd : Reg) (imm : BitVec 20) (s : State) : Result := complete rd (upperImm imm) s

/-- R248: link value `pc + 4` to `rd`, then to `pc + imm`. -/
def execJal (rd : Reg) (imm : BitVec 21) (s : State) : Result :=
  completeTo rd s.nextPc (relativeTarget s imm) s

/-- R249: link value `pc + 4` to `rd`, then to `x[rs1] + imm` with the old `x[rs1]` (R126). -/
def execJalr (rd rs1 : Reg) (imm : BitVec 12) (s : State) : Result :=
  completeTo rd s.nextPc (jalrTarget Config.jalrClearBit0 (s.readReg rs1) imm) s

end Sys2Proof.Machine
end

