-- ==== Sys2Proof/Machine/Step.lean ====
section
/-! DEFINITION. One iteration of the run loop (40_pipeline.md rules R150, R151), and the placing of one instruction where
it fetches. -/

namespace Sys2Proof.Machine

/-- One iteration of the run loop: no step from `TERMINATED` (R152); the halt word and a word outside the table raise
their conditions (R121, R123); any other word is executed. -/
def step (s : State) : Host.Outcome State Fault Refusal :=
  if s.terminated then .fault .terminated
  else
    match decode s.fetch with
    | .ok i => exec i s
    | .error r => stopWith (rejectReason r) s

/-- `s` with the table word stored at `pc`, as an image load stores it (R305), and the run loop in `RUNNING`, so that
the very next step fetches and runs it (log 2). -/
def State.withFetchWord (s : State) (nbits w : Nat) : State :=
  { s.memWrite s.pc 4 (tableWord nbits w) with terminated := false, stopReason := none }

end Sys2Proof.Machine
end

