-- ==== Sys2Proof/Machine/Pipeline.lean ====
section
/-! DEFINITION. The same instruction step written as the spec's five stages with their transient records (10_state.md
rules R34 to R36, 40_pipeline.md rules R120 to R151).  `exec` and `step` are the machine; this is the stage view of it,
from the stage rules and the table of R130 instead of the per-instruction rules, so that the two can be held against
each other. -/

namespace Sys2Proof.Machine

/-! ### The transient records -/

/-- Direction of a memory access (R34). -/
inductive AccessMode where
  | load
  | store
  deriving DecidableEq, Repr

/-- Width of a memory access (R34, R59). -/
inductive AccessWidth where
  | byte
  | half
  | word
  | doubleword
  | unsignedByte
  deriving DecidableEq, Repr

/-- The memory descriptor `mem_op` (R34); its absence is the control signal `is_mem` = false (R36). -/
structure MemOp where
  mode : AccessMode
  width : AccessWidth
  deriving DecidableEq, Repr

/-- The Decoded Instruction (R34).  What a field holds that an instruction does not use is left free and is not
observable (R124, D28); the model's choice is 0, but for operand2 of the loads and `jalr`, which holds the I immediate
(DESIGN CHOICE, log 18). -/
structure DecodedInstruction where
  format : Format
  op : Op
  operand1 : Word
  operand2 : Word
  rd : Reg
  imm : Word
  writeBack : Bool
  memOp : Option MemOp
  deriving DecidableEq, Repr

/-- The next-PC selection (R35). -/
inductive NextPc where
  | sequential
  | relative (imm : Word)
  | absolute (target : Word)
  deriving DecidableEq, Repr

/-- The Execution Result (R35). -/
structure ExecutionResult where
  registerData : Word
  storeData : Word
  nextPc : NextPc
  deriving DecidableEq, Repr

/-- `is_mem` (R36). -/
def DecodedInstruction.isMem (d : DecodedInstruction) : Bool := d.memOp.isSome

/-- `write_back_signal` (R36). -/
def DecodedInstruction.writeBackSignal (d : DecodedInstruction) : Bool := d.writeBack

/-- The increment `inc_select` chooses: `imm` for a taken branch, 4 for the sequential selection (R36, D17).  When the
selection is absolute (`jal`, `jalr`) the increment is not used, and R36 and D17 leave it open; the 4 there is the model's
choice (DESIGN CHOICE, log 18). -/
def ExecutionResult.incSelect (r : ExecutionResult) : Word :=
  match r.nextPc with
  | .relative imm => imm
  | .sequential | .absolute _ => 4#32

/-- The absolute target `pc_select` chooses, none where it chooses the incremented `pc` (R36, D17).  The form, a target or
none, is the model's choice, since D17 assigns no encoding (DESIGN CHOICE, log 18). -/
def ExecutionResult.pcSelect (r : ExecutionResult) : Option Word :=
  match r.nextPc with
  | .absolute t => some t
  | .sequential | .relative _ => none

/-! ### Stage F (R121) -/

/-- Read the word at `pc`, or halt. -/
def stageF (s : State) : Except StopReason Word :=
  let inst := s.memRead s.pc 4
  if inst = 0#32 then .error .halt else .ok inst

/-! ### Stage D (R122 to R125) -/

/-- The immediate of a format as a 32-bit value (R91 to R95).  R has none; the 0 there is the model's choice
(DESIGN CHOICE, log 18). -/
def formatImm (f : Format) (inst : Word) : Word :=
  match f with
  | .R => 0#32
  | .I => sext (immIOf inst)
  | .S => sext (immSOf inst)
  | .SB => sext (immSBOf inst)
  | .U => inst &&& 0xFFFFF000#32
  | .UJ => sext (immUJOf inst)

/-- operand1 of a format (R124).  U and UJ do not use it; the 0 there is the model's choice (DESIGN CHOICE, log 18). -/
def formatOperand1 (f : Format) (s : State) (inst : Word) : Word :=
  match f with
  | .R | .I | .S | .SB => s.readReg (rs1Of inst)
  | .U | .UJ => 0#32

/-- operand2 of a format: `x[rs2]`, or the immediate of an I-format ALU operation (R124).  The loads, `jalr`, U and UJ do
not use it, and R124 and D28 leave its content free; that it holds the sign-extended I immediate for the loads and
`jalr`, and 0 for U and UJ, is the model's choice (DESIGN CHOICE, log 18). -/
def formatOperand2 (f : Format) (s : State) (inst : Word) : Word :=
  match f with
  | .R | .S | .SB => s.readReg (rs2Of inst)
  | .I => formatImm .I inst
  | .U | .UJ => 0#32

/-- The destination field of a format (R124: "rd field used").  S and SB do not use it; the 0 there is the model's choice
(DESIGN CHOICE, log 18). -/
def formatRd (f : Format) (inst : Word) : Reg :=
  match f with
  | .R | .I | .U | .UJ => rdOf inst
  | .S | .SB => 0

/-- "true for R/I/U/UJ formats, false for S/SB" (R125). -/
def formatWriteBack (f : Format) : Bool :=
  match f with
  | .R | .I | .U | .UJ => true
  | .S | .SB => false

/-- The memory descriptor of an operation (R124). -/
def memOpOf (op : Op) : Option MemOp :=
  match op with
  | .lb => some ⟨.load, .byte⟩
  | .lh => some ⟨.load, .half⟩
  | .lw => some ⟨.load, .word⟩
  | .ld => some ⟨.load, .doubleword⟩
  | .lbu => some ⟨.load, .unsignedByte⟩
  | .sb => some ⟨.store, .byte⟩
  | .sh => some ⟨.store, .half⟩
  | .sw => some ⟨.store, .word⟩
  | .sd => some ⟨.store, .doubleword⟩
  | .add | .sub | .sll | .slt | .xor | .srl | .sra | .or | .and | .mul | .div | .rem | .addi | .andi | .ori
  | .beq | .bne | .blt | .bge | .auipc | .lui | .jal | .jalr => none

/-- Look the word up and fill the Decoded Instruction, or a decode error. -/
def stageD (s : State) (inst : Word) : Except StopReason DecodedInstruction :=
  match lookup (opcodeOf inst) (funct3Of inst) (funct7Of inst) with
  | none => .error (.decodeError inst)
  | some row => .ok
    { format := row.format
      op := row.op
      operand1 := formatOperand1 row.format s inst
      operand2 := formatOperand2 row.format s inst
      rd := formatRd row.format inst
      imm := formatImm row.format inst
      writeBack := formatWriteBack row.format
      memOp := memOpOf row.op }

/-! ### Stage X (R130 to R132) -/

/-- An ALU result, going on sequentially.  The store data is not used; its 0 is the model's choice (DESIGN CHOICE,
log 18). -/
def aluResult (v : Word) : ExecutionResult := ⟨v, 0#32, .sequential⟩

/-- A branch: the offset is recorded when the condition holds (R230).  The register and the store data are not used;
their 0 is the model's choice (DESIGN CHOICE, log 18). -/
def branchResult (taken : Bool) (imm : Word) : ExecutionResult :=
  ⟨0#32, 0#32, if taken then .relative imm else .sequential⟩

/-- A shift, or its execute error (R132). -/
def shiftResult (f : Word → Nat → Word) (a b : Word) : Except StopReason ExecutionResult :=
  if isNegative b then .error (.executeError .negativeShift)
  else .ok (aluResult (f a (shiftAmount Config.shiftAmountMode b)))

/-- A division, or its execute error (R132). -/
def divisionResult (f : Word → Word → Word) (a b : Word) : Except StopReason ExecutionResult :=
  if isZero b then .error (.executeError .divideByZero) else .ok (aluResult (f a b))

/-- The table of R130.  The store data of `jal` and `jalr` is not used; its 0 is the model's choice (DESIGN CHOICE,
log 18). -/
def stageX (d : DecodedInstruction) (pc : Word) : Except StopReason ExecutionResult :=
  match d.op with
  | .add => .ok (aluResult (aluAdd d.operand1 d.operand2))
  | .sub => .ok (aluResult (aluSub d.operand1 d.operand2))
  | .and => .ok (aluResult (aluAnd d.operand1 d.operand2))
  | .or => .ok (aluResult (aluOr d.operand1 d.operand2))
  | .xor => .ok (aluResult (aluXor d.operand1 d.operand2))
  | .slt => .ok (aluResult (aluSlt d.operand1 d.operand2))
  | .sll => shiftResult shiftLeft d.operand1 d.operand2
  | .srl => shiftResult shiftRightLogical d.operand1 d.operand2
  | .sra => shiftResult shiftRightArith d.operand1 d.operand2
  | .mul => .ok (aluResult (aluMul d.operand1 d.operand2))
  | .div => divisionResult aluDiv d.operand1 d.operand2
  | .rem => divisionResult aluRem d.operand1 d.operand2
  | .addi => .ok (aluResult (aluAdd d.operand1 d.operand2))
  | .andi => .ok (aluResult (aluAnd d.operand1 d.operand2))
  | .ori => .ok (aluResult (aluOr d.operand1 d.operand2))
  | .lb | .lh | .lw | .ld | .lbu => .ok (aluResult (d.operand1 + d.imm))
  | .sb | .sh | .sw | .sd => .ok ⟨d.operand1 + d.imm, d.operand2, .sequential⟩
  | .beq => .ok (branchResult (isEqual d.operand1 d.operand2) d.imm)
  | .bne => .ok (branchResult (!isEqual d.operand1 d.operand2) d.imm)
  | .blt => .ok (branchResult (isLess d.operand1 d.operand2) d.imm)
  | .bge => .ok (branchResult (!isLess d.operand1 d.operand2) d.imm)
  | .auipc => .ok (aluResult (pc + Config.auipcBias + d.imm))
  | .lui => .ok (aluResult d.imm)
  | .jal => .ok ⟨pc + 4#32, 0#32, .absolute (pc + d.imm)⟩
  | .jalr => .ok ⟨pc + 4#32, 0#32, .absolute (d.operand1 + d.imm)⟩

/-! ### Stage M (R135 to R138) -/

/-- Read and extend by width (R136). -/
def loadValue (s : State) (width : AccessWidth) (ea : Word) : Word :=
  match width with
  | .byte => (s.memRead ea 1).signExtend 32
  | .half => (s.memRead ea 2).signExtend 32
  | .word => s.memRead ea 4
  | .doubleword => lowWord (s.memRead ea 8)
  | .unsignedByte => (s.memRead ea 1).setWidth 32

/-- Write the low bytes by width (R137).  No store has the unsigned width (R124, R59); that case is never reached and is
filled in as a byte (DESIGN CHOICE, log 18). -/
def storeValue (s : State) (width : AccessWidth) (ea v : Word) : State :=
  match width with
  | .byte | .unsignedByte => s.memWrite ea 1 (v.extractLsb' 0 8)
  | .half => s.memWrite ea 2 (v.extractLsb' 0 16)
  | .word => s.memWrite ea 4 v
  | .doubleword => s.memWrite ea 8 (padDouble v)

/-- The next program counter (R138). -/
def selectPc (pc : Word) (n : NextPc) : Word :=
  match n with
  | .sequential => pc + 4#32
  | .relative imm => pc + imm
  | .absolute t => t

/-- Access memory, update `pc`, and hand on the pending write-back value. -/
def stageM (s : State) (d : DecodedInstruction) (r : ExecutionResult) : State × Word :=
  match d.memOp with
  | none => ({ s with pc := selectPc s.pc r.nextPc }, r.registerData)
  | some ⟨.load, width⟩ =>
    ({ s with pc := selectPc s.pc r.nextPc }, loadValue s width r.registerData)
  | some ⟨.store, width⟩ =>
    ({ storeValue s width r.registerData r.storeData with pc := selectPc s.pc r.nextPc }, r.registerData)

/-! ### Stage W (R140) and the run loop (R150, R151) -/

/-- "If the write-back-required flag is set and destination register index ≠ 0, store the pending value". -/
def stageW (s : State) (d : DecodedInstruction) (pending : Word) : State :=
  if d.writeBack && d.rd != 0 then { s with x := s.x.set d.rd.val pending d.rd.isLt } else s

/-- The five stages of one instruction, then the cycle counter (R151), from a state whose run loop is `RUNNING`. -/
def pipelineCycle (s : State) : Except StopReason State := do
  let inst ← stageF s
  let d ← stageD s inst
  let r ← stageX d s.pc
  let (s1, pending) := stageM s d r
  let s2 := stageW s1 d pending
  .ok { s2 with cycles := s2.cycles + 1 }

/-- One iteration of the run loop in the stage view: no iteration in `TERMINATED`, a raised condition sets the flag and
the reason and nothing else. -/
def pipelineStep (s : State) : Result :=
  if s.terminated then .fault .terminated
  else
    match pipelineCycle s with
    | .ok t => .next t
    | .error r => .next (s.raise r)

end Sys2Proof.Machine
end

