-- ==== Sys2Proof/Machine/Run.lean ====
section
/-! DEFINITION. The start and the end of a run as the host sees them: the image load (70_reset_and_hazards.md rule
R305), the run loop (R313), and the two dumps (60_exceptions.md rules R275, R276). -/

namespace Sys2Proof.Machine

/-- `load_image`: each entry is `MemWrite(A, 4, W)`, in sequence order, so a later entry wins where two overlap (R305;
log 21). -/
def loadImage (entries : List (Word × Word)) (s : State) : State :=
  entries.foldl (fun t e => t.memWrite e.1 4 e.2) s

/-- Reset, then image load: the state before the first fetch (R313). -/
def State.boot (entries : List (Word × Word)) : State := loadImage entries State.reset

/-- At most `n` iterations of the run loop, ending as soon as the core is terminated (R150, R152, R313). -/
def runLoop : Nat → State → State
  | 0, s => s
  | n + 1, s =>
    match step s with
    | .next t => runLoop n t
    | .fault _ => s
    | .refused _ => s

/-! ### Register dump (R275) -/

/-- `dump_registers(S) = [x[0], x[1], .., x[31]]`. -/
def dumpRegisters (s : State) : List Word := (List.finRange 32).map s.readReg

/-- One hexadecimal digit, in lower case as the source's one example prints it (R275; log 19). -/
def hexDigit (n : Nat) : Char := "0123456789abcdef".toList.getD n '0'

/-- Eight hexadecimal digits after `0x`, most significant first. -/
def hexWord (v : Word) : String :=
  "0x" ++ String.ofList ((List.range 8).map fun k => hexDigit (v.toNat / 16 ^ (7 - k) % 16))

/-- The line `x<index> <0x-prefixed 8-hex-digit value>`. -/
def registerLine (r : Reg) (v : Word) : String := "x" ++ toString r.val ++ " " ++ hexWord v

/-- The 32 lines of the register dump, in index order. -/
def registerDumpLines (s : State) : List String :=
  (List.finRange 32).map fun r => registerLine r (s.readReg r)

/-! ### Data dump (R276) -/

/-- Some byte of the four at `a` is written. -/
def wordTouched (s : State) (a : Word) : Bool :=
  s.isWritten a || s.isWritten (a + 1#32) || s.isWritten (a + 2#32) || s.isWritten (a + 3#32)

/-- The 4-byte-aligned addresses of the dump window, in increasing order (D19; log 19). -/
def dumpAddresses : List Word :=
  (List.range ((Config.dumpHi - Config.dumpLo + 3) / 4)).map fun k => BitVec.ofNat 32 (Config.dumpLo + 4 * k)

/-- `dump_data(S)`: a line `(A, MemRead(A, 4))` for each address of the window with a written byte. -/
def dumpData (s : State) : List (Word × Word) :=
  (dumpAddresses.filter (wordTouched s)).map fun a => (a, s.memRead a 4)

/-- The line `<0x-prefixed address> <0x-prefixed 8-hex-digit word>`; the address is printed with eight digits, which
the source does not state (log 19). -/
def dataLine (e : Word × Word) : String := hexWord e.1 ++ " " ++ hexWord e.2

/-- The lines of the data dump. -/
def dataDumpLines (s : State) : List String := (dumpData s).map dataLine

end Sys2Proof.Machine
end

