-- ==== Sys2Proof/Safety.lean ====
section
/-! DEFINITION. The terms claims are made in: how a run ended (60_exceptions.md rules R260, R261), and what one
completed instruction leaves, said through reads of registers and bytes. -/

namespace Sys2Proof.Machine

/-- The core has stopped at a halt word: "finished without error" (R261). -/
def State.Finished (s : State) : Prop := s.terminated = true ∧ s.stopReason = some .halt

/-- The core has stopped at a decode or an execute error (R262 to R264). -/
def State.Failed (s : State) : Prop :=
  s.terminated = true ∧ ∃ r, s.stopReason = some r ∧ r ≠ .halt

/-- A state some number of steps after another. -/
inductive Reaches : State → State → Prop where
  | refl (s : State) : Reaches s s
  | tail {s t u : State} : Reaches s t → step t = .next u → Reaches s u

/-- A run that never stops with an error. -/
def SafeFrom (s : State) : Prop := ∀ t, Reaches s t → ¬ t.Failed

/-- The execute error an instruction raises in a state, if any (R130 "can raise", R263, R264). -/
def raises (i : Instr) (s : State) : Option ExecuteError :=
  match i with
  | .sll _ _ rs2 | .srl _ _ rs2 | .sra _ _ rs2 => if (s.readReg rs2).toInt < 0 then some .negativeShift else none
  | .div _ _ rs2 | .rem _ _ rs2 => if s.readReg rs2 = 0#32 then some .divideByZero else none
  | .add _ _ _ | .sub _ _ _ | .slt _ _ _ | .xor _ _ _ | .or _ _ _ | .and _ _ _ | .mul _ _ _
  | .addi _ _ _ | .andi _ _ _ | .ori _ _ _ | .lb _ _ _ | .lh _ _ _ | .lw _ _ _ | .ld _ _ _ | .lbu _ _ _
  | .sb _ _ _ | .sh _ _ _ | .sw _ _ _ | .sd _ _ _ | .beq _ _ _ | .bne _ _ _ | .blt _ _ _ | .bge _ _ _
  | .auipc _ _ | .lui _ _ | .jal _ _ | .jalr _ _ _ => none

/-- The word at `pc`: `byte[PC+3]:byte[PC+2]:byte[PC+1]:byte[PC]` (R121). -/
def wordAtPc (s : State) : Word :=
  s.readByte (s.pc + 3#32) ++ s.readByte (s.pc + 2#32) ++ s.readByte (s.pc + 1#32) ++ s.readByte s.pc

/-- The stop condition a running core meets at its `pc`, if any: the table of R260 in the order of R271. -/
def stopCondition (s : State) : Option StopReason :=
  if wordAtPc s = 0#32 then some .halt
  else
    match decode (wordAtPc s) with
    | .error _ => some (.decodeError (wordAtPc s))
    | .ok i => (raises i s).map .executeError

/-- Nothing of memory differs: every byte reads as before and has the same written mark. -/
def SameMemory (s t : State) : Prop :=
  ∀ a : Word, t.readByte a = s.readByte a ∧ t.isWritten a = s.isWritten a

/-- No register differs. -/
def SameRegisters (s t : State) : Prop := ∀ r : Reg, t.readReg r = s.readReg r

/-- The Termination Flag and the stop reason are as before. -/
def SameFlag (s t : State) : Prop := t.terminated = s.terminated ∧ t.stopReason = s.stopReason

/-- `i` completes from `s`: the register `rd` receives `v` (nothing, when it is register 0), the next address is `pc'`,
one cycle is counted, and nothing else differs. -/
def CompletesWriting (i : Instr) (s : State) (rd : Reg) (v pc' : Word) : Prop :=
  ∃ t, exec i s = .next t ∧
    (∀ r : Reg, t.readReg r = if r = rd ∧ r ≠ 0 then v else s.readReg r) ∧
    t.pc = pc' ∧ t.cycles = s.cycles + 1 ∧ SameFlag s t ∧ SameMemory s t

/-- `i` completes from `s` without writing a register: the next address is `pc'`, one cycle is counted, and nothing
else differs. -/
def CompletesAt (i : Instr) (s : State) (pc' : Word) : Prop :=
  ∃ t, exec i s = .next t ∧ SameRegisters s t ∧
    t.pc = pc' ∧ t.cycles = s.cycles + 1 ∧ SameFlag s t ∧ SameMemory s t

/-- `i` completes from `s` by storing the `n` low bytes of the number `v` at `ea`, least significant first and with
addresses modulo 2^32: exactly those bytes take their value and are marked written, the next address is `pc + 4`, one
cycle is counted, and nothing else differs. -/
def CompletesStoring (i : Instr) (s : State) (ea : Word) (n v : Nat) : Prop :=
  ∃ t, exec i s = .next t ∧ SameRegisters s t ∧
    t.pc = s.pc + 4#32 ∧ t.cycles = s.cycles + 1 ∧ SameFlag s t ∧
    ∀ a : Word,
      (t.readByte a = if (a - ea).toNat < n then BitVec.ofNat 8 (v / 256 ^ (a - ea).toNat) else s.readByte a) ∧
      t.isWritten a = (decide ((a - ea).toNat < n) || s.isWritten a)

/-- `i` stops the core from `s` with the reason `r`: the Termination Flag and the reason are set, and every other field
is as it was (R265). -/
def StopsWith (i : Instr) (s : State) (r : StopReason) : Prop :=
  exec i s = .next { s with terminated := true, stopReason := some r }

end Sys2Proof.Machine
end

