-- ==== Sys2Proof/Certificates/Slice0/Obligations.lean ====
section
/-! DEFINITION. The statements for the provers, each a proposition about the model.  A docstring names the rule or the
section of spec/ a statement formalises and, where a clause rests on a decision of the spec or of the model, that
decision and its log entry. -/

open Sys2Proof Sys2Proof.Machine

/-! ### Encoding -/

/-- Decoding the word of a well-formed instruction gives the instruction back, for every instruction and every operand
its encoding admits (30_encoding.md sections 1 to 3).  The numeric codes are the spec's decisions D1, D2, D16 (log 3,
14). -/
def Obligations.DecodeOfEncodeIsIdentity : Prop :=
  ∀ i : Instr, WellFormed i = true → decode (encode i) = .ok i

/-- Each word has one meaning: a word that decodes is the encoding of a well-formed instruction and of no other word's
(30_encoding.md sections 1 to 3; decisions D1, D2, D16, log 3, 14). -/
def Obligations.EncodeOfDecodeIsIdentity : Prop :=
  ∀ (w : Word) (i : Instr), decode w = .ok i → WellFormed i = true ∧ encode i = w

/-- R100: the three-level lookup finds exactly the row with `inst & mask == match`, so no two rows overlap.  Which
entries use which wildcard is decision D16 (log 14). -/
def Obligations.LookupIsMaskAndMatch : Prop :=
  ∀ (w : Word) (r : Row),
    lookup (opcodeOf w) (funct3Of w) (funct7Of w) = some r ↔ r ∈ decodeTable ∧ r.Matches w

/-- R101 to R106 and opcode_table.json: the match and mask of each of the 32 rows.  The match values are decision D1 (log 3); the
masks, that is which fields a row is keyed on (the funct7 wildcard of S and SB, the funct3 key of `jalr`), are decision
D16 (log 14). -/
def Obligations.RowsHaveTheTablesMatchAndMask : Prop :=
  Op.all.map (fun o => (o, o.row.pattern, o.row.mask)) =
    [(.add, 0x00000033#32, 0xFE00707F#32), (.sub, 0x40000033#32, 0xFE00707F#32),
     (.sll, 0x00001033#32, 0xFE00707F#32), (.slt, 0x00002033#32, 0xFE00707F#32),
     (.xor, 0x00004033#32, 0xFE00707F#32), (.srl, 0x00005033#32, 0xFE00707F#32),
     (.sra, 0x40005033#32, 0xFE00707F#32), (.or, 0x00006033#32, 0xFE00707F#32),
     (.and, 0x00007033#32, 0xFE00707F#32), (.mul, 0x02000033#32, 0xFE00707F#32),
     (.div, 0x02004033#32, 0xFE00707F#32), (.rem, 0x02006033#32, 0xFE00707F#32),
     (.addi, 0x00000013#32, 0x0000707F#32), (.andi, 0x00007013#32, 0x0000707F#32),
     (.ori, 0x00006013#32, 0x0000707F#32), (.lb, 0x00000003#32, 0x0000707F#32),
     (.lh, 0x00001003#32, 0x0000707F#32), (.lw, 0x00002003#32, 0x0000707F#32),
     (.ld, 0x00003003#32, 0x0000707F#32), (.lbu, 0x00004003#32, 0x0000707F#32),
     (.sb, 0x00000023#32, 0x0000707F#32), (.sh, 0x00001023#32, 0x0000707F#32),
     (.sw, 0x00002023#32, 0x0000707F#32), (.sd, 0x00003023#32, 0x0000707F#32),
     (.beq, 0x00000063#32, 0x0000707F#32), (.bne, 0x00001063#32, 0x0000707F#32),
     (.blt, 0x00004063#32, 0x0000707F#32), (.bge, 0x00005063#32, 0x0000707F#32),
     (.auipc, 0x00000017#32, 0x0000007F#32), (.lui, 0x00000037#32, 0x0000007F#32),
     (.jal, 0x0000006F#32, 0x0000007F#32), (.jalr, 0x00000067#32, 0x0000707F#32)]

/-- One worked word of each format decodes to the instruction it stands for (95_test_vectors.md section 2.1; words on
decisions D1 and D2, log 3). -/
def Obligations.WorkedWordsDecode : Prop :=
  decode 0x007302B3#32 = .ok (.add 5 6 7) ∧
  decode 0xFFD30293#32 = .ok (.addi 5 6 0xFFD#12) ∧
  decode 0x80732023#32 = .ok (.sw 6 7 0x800#12) ∧
  decode 0x00208463#32 = .ok (.beq 1 2 8#13) ∧
  decode 0x12345297#32 = .ok (.auipc 5 0x12345#20) ∧
  decode 0x001000EF#32 = .ok (.jal 1 2048#21)

/-- R108: the words that are a decode error are exactly the non-zero words of its classes (a) to (g), written with the
numeric codes of decision D1 (log 3).  Class (f), and that the other classes look at funct3 or at nothing, is decision
D16 (log 14). -/
def Obligations.IllegalWordsAreTheListedClasses : Prop :=
  ∀ w : Word,
    (decode w = .error (.unidentifiable w)) ↔
      w ≠ 0#32 ∧
        let op := w.toNat % 128
        let f3 := w.toNat / 2 ^ 12 % 8
        let f7 := w.toNat / 2 ^ 25
        (op = 0b0110011 ∧ (f7, f3) ∉ [(0, 0), (32, 0), (0, 1), (0, 2), (0, 4), (0, 5), (32, 5), (0, 6), (0, 7),
            (1, 0), (1, 4), (1, 6)]) ∨
        (op = 0b0010011 ∧ f3 ∈ [1, 2, 3, 4, 5]) ∨
        (op = 0b0000011 ∧ f3 ∈ [5, 6, 7]) ∨
        (op = 0b0100011 ∧ f3 ∈ [4, 5, 6, 7]) ∨
        (op = 0b1100011 ∧ f3 ∈ [2, 3, 6, 7]) ∨
        (op = 0b1100111 ∧ f3 ≠ 0) ∨
        op ∉ [0b0110011, 0b0010011, 0b0000011, 0b0100011, 0b1100011, 0b1100111, 0b0010111, 0b0110111, 0b1101111]

/-- R91, R92, R94, R95 (and the formula of R93): the immediate each format delivers, as a number made from the fields
of the word: the weighted sum of the fields, less the sign bit's weight. -/
def Obligations.ImmediatesAreReassembled : Prop :=
  ∀ (w : Word) (i : Instr), decode w = .ok i →
    match i.format with
    | .R => True
    | .I => (immediate i).toInt = (w.toNat / 2 ^ 20 : Nat) - (if w.getLsbD 31 then 4096 else 0)
    | .S => (immediate i).toInt = (32 * (w.toNat / 2 ^ 25) + w.toNat / 2 ^ 7 % 32 : Nat) -
        (if w.getLsbD 31 then 4096 else 0)
    | .SB => (immediate i).toInt = (2048 * (w.toNat / 2 ^ 7 % 2) + 32 * (w.toNat / 2 ^ 25 % 64) +
        2 * (w.toNat / 2 ^ 8 % 16) : Nat) - (if w.getLsbD 31 then 4096 else 0)
    | .U => immediate i = w &&& 0xFFFFF000#32
    | .UJ => (immediate i).toInt = (4096 * (w.toNat / 2 ^ 12 % 256) + 2048 * (w.toNat / 2 ^ 20 % 2) +
        2 * (w.toNat / 2 ^ 21 % 1024) : Nat) - (if w.getLsbD 31 then 1048576 else 0)

/-! ### The step and the stop conditions -/

/-- A running core whose word at `pc` (four bytes, little-endian, at any alignment) decodes to `i` takes the step
`exec i`; nothing is added around it (40_pipeline.md sections 2, 3 and 7; the wrap of the four addresses is decision D9,
log 9, and that no alignment is checked is D11, log 10). -/
def Obligations.StepRunsTheDecodedInstruction : Prop :=
  ∀ (s : State) (i : Instr), s.terminated = false →
    decode (s.readByte (s.pc + 3#32) ++ s.readByte (s.pc + 2#32) ++ s.readByte (s.pc + 1#32) ++ s.readByte s.pc) =
      .ok i →
    step s = exec i s

/-- R127: a halt word and a non-zero word that matches no row end the instruction in F or D; only the Termination Flag
and the stop reason are set. -/
def Obligations.HaltAndDecodeErrorOnlySetTheFlag : Prop :=
  ∀ s : State, s.terminated = false →
    (wordAtPc s = 0#32 → step s = .next { s with terminated := true, stopReason := some .halt }) ∧
    (wordAtPc s ≠ 0#32 → (∀ r ∈ decodeTable, ¬ r.Matches (wordAtPc s)) →
      step s = .next { s with terminated := true, stopReason := some (.decodeError (wordAtPc s)) })

/-- R263: `div` and `rem` with a zero divisor stop the core, whatever the dividend and whatever `rd`.  That it applies
to `rem` as well is decision D8 (log 8). -/
def Obligations.DivisionByZeroStops : Prop :=
  ∀ (s : State) (rd rs1 rs2 : Reg), s.readReg rs2 = 0#32 →
    StopsWith (.div rd rs1 rs2) s (.executeError .divideByZero) ∧
    StopsWith (.rem rd rs1 rs2) s (.executeError .divideByZero)

/-- R264: `sll`, `srl` and `sra` with a negative amount stop the core, whatever `x[rs1]` and whatever `rd`. -/
def Obligations.NegativeShiftStops : Prop :=
  ∀ (s : State) (rd rs1 rs2 : Reg), (s.readReg rs2).toInt < 0 →
    StopsWith (.sll rd rs1 rs2) s (.executeError .negativeShift) ∧
    StopsWith (.srl rd rs1 rs2) s (.executeError .negativeShift) ∧
    StopsWith (.sra rd rs1 rs2) s (.executeError .negativeShift)

/-- R260, R265, R266, R290: every step of a running core either meets one of the four stop conditions, and then only
the flag and the reason change, or completes, and then the core goes on and one cycle is counted.  A running core
always has a next state: nothing else stops it.  The names of the reasons are decision D14 (log 16), `rem` by zero is
D8 (log 8). -/
def Obligations.EveryStepStopsPreciselyOrCompletes : Prop :=
  ∀ s : State, s.terminated = false →
    match stopCondition s with
    | some r => step s = .next { s with terminated := true, stopReason := some r }
    | none => ∃ t, step s = .next t ∧ t.terminated = false ∧ t.stopReason = s.stopReason ∧ t.cycles = s.cycles + 1

/-- R152: a terminated core takes no step (decision D15).  That the model answers so with its one fault is the model's choice
(log 1). -/
def Obligations.TerminatedCoreTakesNoStep : Prop :=
  ∀ s : State, s.terminated = true → step s = .fault .terminated

/-- The five stages one after the other, with their transient records, are the step (40_pipeline.md sections 2 to 7).
That a step is one whole instruction is log 17; what unused fields of the records hold is log 18. -/
def Obligations.FiveStagesRefineTheStep : Prop :=
  ∀ s : State, pipelineStep s = step s

/-! ### Invariants and whole-machine rules -/

/-- Every step keeps the form of a state: memory and marks canonical, every listed byte written, the storage behind
`x[0]` 0, a stop reason exactly when terminated (10_state.md; log 11, 12, 16). -/
def Obligations.EveryStepKeepsTheFormOfTheState : Prop :=
  ∀ s t : State, s.wf → step s = .next t → t.wf

/-- The state after reset has that form. -/
def Obligations.ResetHasTheFormOfAState : Prop := State.reset.wf

/-- R22: an instruction changes no stored register but its `rd`, not even that when `rd` is 0, only formats R, I, U and
UJ have one, and register 0 reads 0 afterwards. -/
def Obligations.OnlyTheDestinationRegisterIsWritten : Prop :=
  ∀ (i : Instr) (s t : State), exec i s = .next t →
    (∀ r : Reg, i.dest ≠ some r ∨ r = 0 → t.x.get r = s.x.get r) ∧ t.readReg 0 = 0#32 ∧
    (i.dest.isSome = true ↔ i.format = .R ∨ i.format = .I ∨ i.format = .U ∨ i.format = .UJ)

/-- The registers an instruction does not read have no influence on what it does: changing the storage of one of them
beforehand leaves the outcome the same, but for that storage, and not even for that where the instruction writes it
(10_state.md section 2). -/
def Obligations.UnreadRegistersHaveNoInfluence : Prop :=
  ∀ (i : Instr) (s t : State) (r : Reg) (v : Word), r ∉ i.sources → exec i s = .next t →
    exec i { s with x := s.x.set r.val v r.isLt } =
      .next (if i.dest = some r ∧ r ≠ 0 ∧ raises i s = none then t else { t with x := t.x.set r.val v r.isLt })

/-- "register 0 contributes the value 0 regardless of stored content" (10_state.md section 2): whatever stands behind
`x[0]`, the step is the same and leaves it there. -/
def Obligations.StorageBehindRegisterZeroIsUnobservable : Prop :=
  ∀ (s t : State) (v : Word), step s = .next t →
    step { s with x := s.x.set 0 v } = .next { t with x := t.x.set 0 v }

/-- No instruction reads the cycle counter; a completed instruction adds one to it and a stop adds nothing
(60_exceptions.md section 7).  That it never wraps is decision D13 (log 15). -/
def Obligations.CycleCounterIsOutputOnly : Prop :=
  ∀ (s t : State) (n : Nat), step s = .next t →
    step { s with cycles := n } = .next { t with cycles := if t.terminated then n else n + 1 }

/-- The written marks have no influence on execution: they are "observable only through the data dump" (10_state.md
section 5). -/
def Obligations.WrittenMarksAreUnobservable : Prop :=
  ∀ (s t : State) (w : List Nat), step s = .next t →
    ∃ w', step { s with written := w } = .next { t with written := w' }

/-- Only stores change memory, and no instruction unwrites a byte (20_memory.md sections 1 and 4). -/
def Obligations.OnlyStoresChangeMemory : Prop :=
  ∀ (i : Instr) (s t : State), exec i s = .next t →
    (i.format ≠ .S → t.mem = s.mem ∧ t.written = s.written) ∧
    ∀ a : Word, s.isWritten a = true → t.isWritten a = true

/-- How each completed instruction advances `pc` (10_state.md section 3); which condition takes each branch is
46_branches.md section 2.  That `blt` and `bge` compare as signed numbers is decision D21 (log 20), that every sum is
modulo 2^32 is decision D9 (log 9), that `jalr` keeps bit 0 of its target is decision D10 (log 10). -/
def Obligations.ProgramCounterAdvance : Prop :=
  ∀ (i : Instr) (s t : State), exec i s = .next t → raises i s = none →
    t.pc =
      match i with
      | .jal _ imm => s.pc + imm.signExtend 32
      | .jalr _ rs1 imm => s.readReg rs1 + imm.signExtend 32
      | .beq rs1 rs2 imm => if s.readReg rs1 = s.readReg rs2 then s.pc + imm.signExtend 32 else s.pc + 4#32
      | .bne rs1 rs2 imm => if s.readReg rs1 ≠ s.readReg rs2 then s.pc + imm.signExtend 32 else s.pc + 4#32
      | .blt rs1 rs2 imm =>
        if (s.readReg rs1).toInt < (s.readReg rs2).toInt then s.pc + imm.signExtend 32 else s.pc + 4#32
      | .bge rs1 rs2 imm =>
        if (s.readReg rs1).toInt ≥ (s.readReg rs2).toInt then s.pc + imm.signExtend 32 else s.pc + 4#32
      | _ => s.pc + 4#32

/-! ### Results, completion and frame, instruction by instruction

`CompletesWriting`, `CompletesAt` and `CompletesStoring` (Safety.lean) say the next state whole: the register written
(nothing for register 0), the next `pc`, one cycle, and every other register, byte, mark and the flag unchanged.  That
the sums for the next `pc` are modulo 2^32 is decision D9 (log 9) in all of them. -/

/-- `add` and `sub` wrap modulo 2^32 (R161, R162 of 41_alu_register.md). -/
def Obligations.AddSubResults : Prop :=
  ∀ (s : State) (rd rs1 rs2 : Reg),
    CompletesWriting (.add rd rs1 rs2) s rd (s.readReg rs1 + s.readReg rs2) (s.pc + 4#32) ∧
    CompletesWriting (.sub rd rs1 rs2) s rd (s.readReg rs1 - s.readReg rs2) (s.pc + 4#32)

/-- `xor`, `or` and `and` are bitwise (R165, R168, R169 of 41_alu_register.md). -/
def Obligations.LogicResults : Prop :=
  ∀ (s : State) (rd rs1 rs2 : Reg),
    CompletesWriting (.xor rd rs1 rs2) s rd (s.readReg rs1 ^^^ s.readReg rs2) (s.pc + 4#32) ∧
    CompletesWriting (.or rd rs1 rs2) s rd (s.readReg rs1 ||| s.readReg rs2) (s.pc + 4#32) ∧
    CompletesWriting (.and rd rs1 rs2) s rd (s.readReg rs1 &&& s.readReg rs2) (s.pc + 4#32)

/-- `slt` gives 1 or 0 (R164 of 41_alu_register.md); that the comparison is signed is decision D21 (log 20). -/
def Obligations.SltResult : Prop :=
  ∀ (s : State) (rd rs1 rs2 : Reg),
    CompletesWriting (.slt rd rs1 rs2) s rd (if (s.readReg rs1).toInt < (s.readReg rs2).toInt then 1#32 else 0#32)
      (s.pc + 4#32)

/-- `sll` by any amount that is not negative is the low 32 bits of `unsigned(a) * 2^s`, 0 from 32 on (R163 of
41_alu_register.md; amounts of 32 and more are decision D5, log 6). -/
def Obligations.SllResult : Prop :=
  ∀ (s : State) (rd rs1 rs2 : Reg), 0 ≤ (s.readReg rs2).toInt →
    CompletesWriting (.sll rd rs1 rs2) s rd (BitVec.ofNat 32 ((s.readReg rs1).toNat * 2 ^ (s.readReg rs2).toNat))
      (s.pc + 4#32)

/-- `srl` by any amount that is not negative is `floor(unsigned(a) / 2^s)`, 0 from 32 on (R166 of 41_alu_register.md;
decisions D5 and D22, log 6, 20). -/
def Obligations.SrlResult : Prop :=
  ∀ (s : State) (rd rs1 rs2 : Reg), 0 ≤ (s.readReg rs2).toInt →
    CompletesWriting (.srl rd rs1 rs2) s rd (BitVec.ofNat 32 ((s.readReg rs1).toNat / 2 ^ (s.readReg rs2).toNat))
      (s.pc + 4#32)

/-- `sra` by any amount that is not negative is `floor(signed(a) / 2^s)`, the sign fill from 32 on (R167 of
41_alu_register.md; decision D5, log 6). -/
def Obligations.SraResult : Prop :=
  ∀ (s : State) (rd rs1 rs2 : Reg), 0 ≤ (s.readReg rs2).toInt →
    CompletesWriting (.sra rd rs1 rs2) s rd
      (BitVec.ofInt 32 (Int.fdiv (s.readReg rs1).toInt (2 ^ (s.readReg rs2).toNat))) (s.pc + 4#32)

/-- `mul` gives the low 32 bits of the product, the same for the signed and the unsigned reading (R181 of
42_muldiv.md). -/
def Obligations.MulResult : Prop :=
  ∀ (s : State) (rd rs1 rs2 : Reg),
    CompletesWriting (.mul rd rs1 rs2) s rd (BitVec.ofNat 32 ((s.readReg rs1).toNat * (s.readReg rs2).toNat))
      (s.pc + 4#32)

/-- `div` and `rem` by a divisor that is not 0 give the 32-bit quotient and remainder with `a = q * b + r`, `|r| < |b|`
and `r` zero or of the dividend's sign, also for -2^31 by -1 (R182, R183, R184 of 42_muldiv.md; rounding toward zero
and the overflow case are decisions D6 and D7, log 7). -/
def Obligations.DivRemResults : Prop :=
  ∀ (s : State) (rd rs1 rs2 : Reg), s.readReg rs2 ≠ 0#32 →
    ∃ q r : Int,
      (s.readReg rs1).toInt = q * (s.readReg rs2).toInt + r ∧
      r.natAbs < (s.readReg rs2).toInt.natAbs ∧
      (r = 0 ∨ (0 < r ↔ 0 < (s.readReg rs1).toInt)) ∧
      CompletesWriting (.div rd rs1 rs2) s rd (BitVec.ofInt 32 q) (s.pc + 4#32) ∧
      CompletesWriting (.rem rd rs1 rs2) s rd (BitVec.ofInt 32 r) (s.pc + 4#32)

/-- R184: where the divisor divides the dividend, or the two have the same sign, the quotient and the remainder do not
depend on the decided rounding (decision D6, log 7). -/
def Obligations.ExactAndSameSignDivisionIgnoresRounding : Prop :=
  ∀ a b : Int, b ≠ 0 → (b ∣ a ∨ 0 ≤ a * b) →
    quotient .trunc a b = quotient .floor a b ∧ remainder .trunc a b = remainder .floor a b

/-- `addi`, `andi` and `ori` with the immediate sign-extended for all three (R191, R192, R193 of 43_alu_immediate.md). -/
def Obligations.ImmediateResults : Prop :=
  ∀ (s : State) (rd rs1 : Reg) (imm : BitVec 12),
    CompletesWriting (.addi rd rs1 imm) s rd (s.readReg rs1 + imm.signExtend 32) (s.pc + 4#32) ∧
    CompletesWriting (.andi rd rs1 imm) s rd (s.readReg rs1 &&& imm.signExtend 32) (s.pc + 4#32) ∧
    CompletesWriting (.ori rd rs1 imm) s rd (s.readReg rs1 ||| imm.signExtend 32) (s.pc + 4#32)

/-- `lb` and `lbu`: the byte at `x[rs1] + imm`, sign- or zero-extended (R201, R205 of 44_loads.md; that the unsigned
byte load is `lbu` is decision D3, log 4). -/
def Obligations.ByteLoadResults : Prop :=
  ∀ (s : State) (rd rs1 : Reg) (imm : BitVec 12),
    let ea := s.readReg rs1 + imm.signExtend 32
    CompletesWriting (.lb rd rs1 imm) s rd ((s.readByte ea).signExtend 32) (s.pc + 4#32) ∧
    CompletesWriting (.lbu rd rs1 imm) s rd ((s.readByte ea).setWidth 32) (s.pc + 4#32)

/-- `lh`, `lw` and `ld`: the bytes from `x[rs1] + imm` up, little-endian, at any alignment, addresses modulo 2^32
(R202, R203, R204 of 44_loads.md; that `ld` keeps the low four bytes is decision D4, log 5; the wrap is D9, log 9). -/
def Obligations.WideLoadResults : Prop :=
  ∀ (s : State) (rd rs1 : Reg) (imm : BitVec 12),
    let ea := s.readReg rs1 + imm.signExtend 32
    let w := s.readByte (ea + 3#32) ++ s.readByte (ea + 2#32) ++ s.readByte (ea + 1#32) ++ s.readByte ea
    CompletesWriting (.lh rd rs1 imm) s rd ((s.readByte (ea + 1#32) ++ s.readByte ea).signExtend 32) (s.pc + 4#32) ∧
    CompletesWriting (.lw rd rs1 imm) s rd w (s.pc + 4#32) ∧
    CompletesWriting (.ld rd rs1 imm) s rd w (s.pc + 4#32)

/-- `sb`, `sh`, `sw` and `sd` store the low 1, 2, 4 and 8 bytes of `x[rs2]`, the upper four of `sd` being 0, at
`x[rs1] + imm` and change nothing else (R216 to R219 of 45_stores.md; the wrap is
decision D9, log 9, and that the data is always `x[rs2]` is log 22). -/
def Obligations.StoreResults : Prop :=
  ∀ (s : State) (rs1 rs2 : Reg) (imm : BitVec 12),
    CompletesStoring (.sb rs1 rs2 imm) s (effectiveAddress s rs1 imm) 1 (s.readReg rs2).toNat ∧
    CompletesStoring (.sh rs1 rs2 imm) s (effectiveAddress s rs1 imm) 2 (s.readReg rs2).toNat ∧
    CompletesStoring (.sw rs1 rs2 imm) s (effectiveAddress s rs1 imm) 4 (s.readReg rs2).toNat ∧
    CompletesStoring (.sd rs1 rs2 imm) s (effectiveAddress s rs1 imm) 8 (s.readReg rs2).toNat

/-- The effective address a load and a store use is `x[rs1] + imm` with the 12-bit offset sign-extended, modulo 2^32
(R200 of 44_loads.md, R215 of 45_stores.md; the wrap is decision D9, log 9). -/
def Obligations.EffectiveAddressIsBasePlusOffset : Prop :=
  ∀ (s : State) (rs1 : Reg) (imm : BitVec 12),
    ((effectiveAddress s rs1 imm).toNat : Int) = ((s.readReg rs1).toInt + imm.toInt) % 2 ^ 32

/-- A word stored and then loaded from the same address gives the original value, and so does a doubleword (R69 of
20_memory.md, R219 of 45_stores.md; `ld` is decision D4, log 5; the wrap is D9, log 9; that the data is always `x[rs2]` is
log 22). -/
def Obligations.StoreThenLoadGivesTheValue : Prop :=
  ∀ (s t : State) (rs1 rs2 rd : Reg) (imm : BitVec 12),
    (exec (.sw rs1 rs2 imm) s = .next t → CompletesWriting (.lw rd rs1 imm) t rd (s.readReg rs2) (t.pc + 4#32)) ∧
    (exec (.sd rs1 rs2 imm) s = .next t → CompletesWriting (.ld rd rs1 imm) t rd (s.readReg rs2) (t.pc + 4#32))

/-- A word stored over the next instruction is the word the next fetch reads (R67 of 20_memory.md; the sums are modulo
2^32, decision D9, log 9; that the data is always `x[rs2]` is log 22). -/
def Obligations.StoreIsSeenByTheNextFetch : Prop :=
  ∀ (s t : State) (rs1 rs2 : Reg) (imm : BitVec 12),
    effectiveAddress s rs1 imm = s.pc + 4#32 → exec (.sw rs1 rs2 imm) s = .next t →
    wordAtPc t = s.readReg rs2

/-- The branches: taken to `pc + imm` when the condition holds, else `pc + 4`, and nothing else (R231 to R234 of
46_branches.md; that `blt` and `bge` are signed is decision D21, log 20). -/
def Obligations.BranchResults : Prop :=
  ∀ (s : State) (rs1 rs2 : Reg) (imm : BitVec 13),
    CompletesAt (.beq rs1 rs2 imm) s
      (if s.readReg rs1 = s.readReg rs2 then s.pc + imm.signExtend 32 else s.pc + 4#32) ∧
    CompletesAt (.bne rs1 rs2 imm) s
      (if s.readReg rs1 ≠ s.readReg rs2 then s.pc + imm.signExtend 32 else s.pc + 4#32) ∧
    CompletesAt (.blt rs1 rs2 imm) s
      (if (s.readReg rs1).toInt < (s.readReg rs2).toInt then s.pc + imm.signExtend 32 else s.pc + 4#32) ∧
    CompletesAt (.bge rs1 rs2 imm) s
      (if (s.readReg rs1).toInt ≥ (s.readReg rs2).toInt then s.pc + imm.signExtend 32 else s.pc + 4#32)

/-- `lui` gives the shifted immediate, `auipc` adds it to `pc + 4` (R246, R247 of 47_upper_and_jumps.md; the bias of 4
is the source's formula, conflict C2, log 13). -/
def Obligations.UpperImmediateResults : Prop :=
  ∀ (s : State) (rd : Reg) (imm : BitVec 20),
    CompletesWriting (.lui rd imm) s rd (imm.setWidth 32 <<< 12) (s.pc + 4#32) ∧
    CompletesWriting (.auipc rd imm) s rd (s.pc + 4#32 + imm.setWidth 32 <<< 12) (s.pc + 4#32)

/-- `jal` and `jalr` write the link value `pc + 4` and go to `pc + imm` and to `x[rs1] + imm`, with the old `x[rs1]`
and bit 0 kept (R248, R249 of 47_upper_and_jumps.md; bit 0 is decision D10, log 10). -/
def Obligations.JumpResults : Prop :=
  ∀ (s : State) (rd rs1 : Reg) (off : BitVec 21) (imm : BitVec 12),
    CompletesWriting (.jal rd off) s rd (s.pc + 4#32) (s.pc + off.signExtend 32) ∧
    CompletesWriting (.jalr rd rs1 imm) s rd (s.pc + 4#32) (s.readReg rs1 + imm.signExtend 32)

/-! ### Memory, reset, image load, dumps -/

/-- R50, R51: an unwritten address reads 0; writing a byte sets it and marks its address, and leaves every other byte
and mark alone.  That an unwritten address reads 0 needs the form of a state, which every step keeps
(`EveryStepKeepsTheFormOfTheState`). -/
def Obligations.ByteReadsAndWrites : Prop :=
  ∀ (s : State) (a : Word) (b : Byte), s.wf →
    (s.isWritten a = false → s.readByte a = 0#8) ∧
    ∀ k : Word,
      (s.writeByte a b).readByte k = (if k = a then b else s.readByte k) ∧
      (s.writeByte a b).isWritten k = (decide (k = a) || s.isWritten k)

/-- R52, R53: the byte at `addr + i` modulo 2^32 is bits `8i+7 : 8i` of a wide access, read or written; a wide write
marks its bytes written and leaves every other byte and mark alone.  The wrap is decision D9 (log 9). -/
def Obligations.WideAccessesAreByteForByte : Prop :=
  ∀ (s : State) (a : Word) (n : Nat) (v : BitVec (8 * n)), n ∈ [1, 2, 4, 8] →
    (∀ i < n, (s.memRead a n).extractLsb' (8 * i) 8 = s.readByte (a + BitVec.ofNat 32 i)) ∧
    (∀ i < n, (s.memWrite a n v).readByte (a + BitVec.ofNat 32 i) = v.extractLsb' (8 * i) 8 ∧
      (s.memWrite a n v).isWritten (a + BitVec.ofNat 32 i) = true) ∧
    (∀ k : Word, (∀ i < n, k ≠ a + BitVec.ofNat 32 i) →
      (s.memWrite a n v).readByte k = s.readByte k ∧ (s.memWrite a n v).isWritten k = s.isWritten k)

/-- The values after reset (10_state.md section 8), and that the first instruction is the word at addresses 0 to 3.  The
counter's 0 and the place of the stop reason are decisions D13 and D14 (log 15, 16); `x[2]` and `x[3]` are the source's
unaudited literals (log 23). -/
def Obligations.ResetValues : Prop :=
  (∀ r : Reg, State.reset.x.get r = if r = 2 then 0x7FFFFFDC#32 else if r = 3 then 0x10000000#32 else 0#32) ∧
  State.reset.pc = 0#32 ∧
  (∀ a : Word, State.reset.readByte a = 0#8 ∧ State.reset.isWritten a = false) ∧
  State.reset.terminated = false ∧ State.reset.stopReason = none ∧ State.reset.cycles = 0 ∧
  ∀ es : List (Word × Word), wordAtPc (State.boot es) =
    (State.boot es).readByte 3#32 ++ (State.boot es).readByte 2#32 ++ (State.boot es).readByte 1#32 ++
      (State.boot es).readByte 0#32

/-- With no image the first fetch reads the halt word and the run ends at once with `Halt` and no cycle
(70_reset_and_hazards.md section 1). -/
def Obligations.EmptyImageHaltsAtOnce : Prop :=
  step State.reset = .next { State.reset with terminated := true, stopReason := some .halt }

/-- The image load touches memory alone and writes each entry's word little-endian, a later entry over an earlier one
(R305 of 70_reset_and_hazards.md; overlaps are decision D27, log 21, and the wrap is D9, log 9). -/
def Obligations.ImageLoadWritesEntriesInOrder : Prop :=
  ∀ (es : List (Word × Word)) (A W : Word) (s : State),
    (∃ m w, loadImage es s = { s with mem := m, written := w }) ∧
    ∀ k : Word,
      (loadImage (es ++ [(A, W)]) s).readByte k =
        (if (k - A).toNat < 4 then W.extractLsb' (8 * (k - A).toNat) 8 else (loadImage es s).readByte k) ∧
      (loadImage (es ++ [(A, W)]) s).isWritten k = (decide ((k - A).toNat < 4) || (loadImage es s).isWritten k)

/-- The register dump is the 32 registers as read, one line each in index order (R275 of 60_exceptions.md; the lower
case of the digits is the model's choice, log 19). -/
def Obligations.RegisterDumpIsTheRegisters : Prop :=
  ∀ s : State, (dumpRegisters s).length = 32 ∧ (registerDumpLines s).length = 32 ∧
    ∀ r : Reg, (dumpRegisters s)[r.val]? = some (s.readReg r) ∧
      (registerDumpLines s)[r.val]? = some ("x" ++ toString r.val ++ " " ++ hexWord (s.readReg r))

/-- The data dump has a line for an address exactly when it is 4-byte-aligned, in the window and has a written byte in
its group, with the word there, in increasing order (R276 of 60_exceptions.md; the order is decision D19, log 19; the
window is the source's unaudited literals, log 23). -/
def Obligations.DataDumpIsTheWrittenWindow : Prop :=
  ∀ s : State,
    (∀ A w : Word, (A, w) ∈ dumpData s ↔
      0x10000000 ≤ A.toNat ∧ A.toNat < 0x1000FFFD ∧ A.toNat % 4 = 0 ∧
      (∃ i < 4, s.isWritten (A + BitVec.ofNat 32 i) = true) ∧
      w = s.readByte (A + 3#32) ++ s.readByte (A + 2#32) ++ s.readByte (A + 1#32) ++ s.readByte A) ∧
    (dumpData s).Pairwise (fun c d => c.1.toNat < d.1.toNat)

/-- While a run of `n` iterations has not stopped, the counter has advanced by exactly `n`, whatever the instructions
(70_reset_and_hazards.md section 4). -/
def Obligations.CyclesCountTheIterations : Prop :=
  ∀ (n : Nat) (s : State), (runLoop n s).terminated = false → (runLoop n s).cycles = s.cycles + n

/-- A run cut in two is the same run, and a stopped core stays as it is (40_pipeline.md section 7; log 1). -/
def Obligations.RunsComposeAndStopsLast : Prop :=
  ∀ (m n : Nat) (s : State), runLoop (m + n) s = runLoop n (runLoop m s) ∧
    ((runLoop m s).terminated = true → runLoop (m + n) s = runLoop m s)

/-- A table word placed at `pc` is the instruction the very next step runs (the model's own placing operation, log 2). -/
def Obligations.PlacedWordIsTheNextInstruction : Prop :=
  ∀ (s : State) (nbits w : Nat) (i : Instr), decodeTableWord nbits w = some i →
    step (s.withFetchWord nbits w) = exec i (s.withFetchWord nbits w)
end

