-- ==== Sys2Proof/Laws/Alu.lean ====
section
/-! SUPPORT. The exact integer form of the arithmetic agrees with wrapping 32-bit arithmetic. -/

namespace Sys2Proof.Machine

@[simp] theorem trunc32_toInt (a : Word) : trunc32 a.toInt = a := BitVec.ofInt_toInt

theorem aluAdd_eq (a b : Word) : aluAdd a b = a + b := by
  simp [aluAdd, trunc32, BitVec.ofInt_add]

theorem aluSub_eq (a b : Word) : aluSub a b = a - b := by
  simp [aluSub, trunc32, BitVec.sub_eq_add_neg, Int.sub_eq_add_neg, BitVec.ofInt_add, BitVec.ofInt_neg]

theorem aluMul_eq (a b : Word) : aluMul a b = a * b := by
  simp [aluMul, trunc32, BitVec.ofInt_mul]

/-- An amount that is not negative is its unsigned value (D5). -/
theorem shiftAmount_full (b : Word) : shiftAmount Config.shiftAmountMode b = b.toNat := rfl

/-- The negative test is the sign bit. -/
theorem isNegative_eq_msb (b : Word) : isNegative b = b.msb := by
  rw [isNegative, BitVec.msb_eq_toInt]

end Sys2Proof.Machine
end

