-- ==== Sys2Proof/Laws/Decode.lean ====
section
/-! SUPPORT. The fields of an encoded word, and what the lookup answers. -/

namespace Sys2Proof

@[simp] theorem Reg.ofBits_bits (r : Reg) : Reg.ofBits (Reg.bits r) = r := rfl
@[simp] theorem Reg.bits_ofBits (b : BitVec 5) : Reg.bits (Reg.ofBits b) = b := rfl

/-! ### Fields of an appended word -/

/-- The low part of an append. -/
theorem extract_low {m n : Nat} (a : BitVec m) (b : BitVec n) : (a ++ b).extractLsb' 0 n = b := by
  ext i hi
  simp [BitVec.getLsbD_append, hi]

/-- A part of an append that lies above the low operand. -/
theorem extract_above {m n : Nat} (a : BitVec m) (b : BitVec n) (k l : Nat) (h : n ≤ k) :
    (a ++ b).extractLsb' k l = a.extractLsb' (k - n) l := by
  ext i hi
  have h1 : ¬ k + i < n := by omega
  have h2 : k + i - n = k - n + i := by omega
  simp [BitVec.getLsbD_append, h1, h2]

/-- Two adjacent parts of a word make one part. -/
theorem extract_join {k : Nat} (w : BitVec k) (s m n : Nat) :
    w.extractLsb' (s + n) m ++ w.extractLsb' s n = w.extractLsb' s (m + n) := by
  ext i hi
  rw [BitVec.getElem_append]
  split
  · simp
  · next h =>
    have : s + n + (i - n) = s + i := by omega
    simp [this]

/-- A part of a part. -/
theorem extract_extract {k : Nat} (w : BitVec k) (s m t n : Nat) (h : t + n ≤ m) :
    (w.extractLsb' s m).extractLsb' t n = w.extractLsb' (s + t) n := by
  ext i hi
  have h1 : t + i < m := by omega
  simp [h1, Nat.add_assoc]

theorem opcodeOf_encodeR (r : Row) (rd rs1 rs2 : Reg) : opcodeOf (encodeR r rd rs1 rs2) = r.opcode :=
  extract_low _ _
theorem funct3Of_encodeR (r : Row) (rd rs1 rs2 : Reg) : funct3Of (encodeR r rd rs1 rs2) = r.f3 := by
  unfold funct3Of encodeR
  rw [extract_above _ _ _ _ (by decide), extract_above _ _ _ _ (by decide)]
  exact extract_low _ _
theorem funct7Of_encodeR (r : Row) (rd rs1 rs2 : Reg) : funct7Of (encodeR r rd rs1 rs2) = r.f7 := by
  unfold funct7Of encodeR
  rw [extract_above _ _ _ _ (by decide), extract_above _ _ _ _ (by decide), extract_above _ _ _ _ (by decide),
    extract_above _ _ _ _ (by decide), extract_above _ _ _ _ (by decide)]
  exact BitVec.extractLsb'_eq_self

theorem opcodeOf_encodeI (r : Row) (rd rs1 : Reg) (imm : BitVec 12) : opcodeOf (encodeI r rd rs1 imm) = r.opcode :=
  extract_low _ _
theorem funct3Of_encodeI (r : Row) (rd rs1 : Reg) (imm : BitVec 12) : funct3Of (encodeI r rd rs1 imm) = r.f3 := by
  unfold funct3Of encodeI
  rw [extract_above _ _ _ _ (by decide), extract_above _ _ _ _ (by decide)]
  exact extract_low _ _

theorem opcodeOf_encodeS (r : Row) (rs1 rs2 : Reg) (imm : BitVec 12) :
    opcodeOf (encodeS r rs1 rs2 imm) = r.opcode :=
  extract_low _ _
theorem funct3Of_encodeS (r : Row) (rs1 rs2 : Reg) (imm : BitVec 12) : funct3Of (encodeS r rs1 rs2 imm) = r.f3 := by
  unfold funct3Of encodeS
  rw [extract_above _ _ _ _ (by decide), extract_above _ _ _ _ (by decide)]
  exact extract_low _ _

theorem opcodeOf_encodeSB (r : Row) (rs1 rs2 : Reg) (imm : BitVec 13) :
    opcodeOf (encodeSB r rs1 rs2 imm) = r.opcode :=
  extract_low _ _
theorem funct3Of_encodeSB (r : Row) (rs1 rs2 : Reg) (imm : BitVec 13) :
    funct3Of (encodeSB r rs1 rs2 imm) = r.f3 := by
  unfold funct3Of encodeSB
  rw [extract_above _ _ _ _ (by decide), extract_above _ _ _ _ (by decide), extract_above _ _ _ _ (by decide)]
  exact extract_low _ _

theorem opcodeOf_encodeU (r : Row) (rd : Reg) (imm : BitVec 20) : opcodeOf (encodeU r rd imm) = r.opcode :=
  extract_low _ _

theorem opcodeOf_encodeUJ (r : Row) (rd : Reg) (imm : BitVec 21) : opcodeOf (encodeUJ r rd imm) = r.opcode :=
  extract_low _ _

/-! ### The lookup -/

/-- Every operation is in the list. -/
theorem Op.mem_all (o : Op) : o ∈ Op.all := by cases o <;> decide

/-- A row's name is its operation. -/
@[simp] theorem Op.row_op (o : Op) : o.row.op = o := by cases o <;> rfl

/-- A row's format tag is its operation's format. -/
@[simp] theorem Op.row_format (o : Op) : o.row.format = o.format := by cases o <;> rfl

/-- What a row found by its key holds. -/
theorem findRow_some {o : BitVec 7} {f3 : Option (BitVec 3)} {f7 : Option (BitVec 7)} {r : Row}
    (h : findRow o f3 f7 = some r) : r ∈ decodeTable ∧ r.opcode = o ∧ r.funct3 = f3 ∧ r.funct7 = f7 := by
  have h1 := List.mem_of_find?_eq_some h
  have h2 := List.find?_some h
  simp only [Bool.and_eq_true, beq_iff_eq] at h2
  exact ⟨h1, h2.1.1, h2.1.2, h2.2⟩

/-- The rows of the table are the rows of the operations. -/
theorem mem_decodeTable {r : Row} : r ∈ decodeTable ↔ ∃ o : Op, r = o.row := by
  unfold decodeTable
  rw [List.mem_map]
  exact ⟨fun ⟨o, _, h⟩ => ⟨o, h.symm⟩, fun ⟨o, h⟩ => ⟨o, o.mem_all, h.symm⟩⟩

/-- What the lookup answers constrains the three fields as its row does. -/
theorem lookup_some {o : BitVec 7} {f3 : BitVec 3} {f7 : BitVec 7} {r : Row} (h : lookup o f3 f7 = some r) :
    r ∈ decodeTable ∧ r.opcode = o ∧ (∀ x, r.funct3 = some x → x = f3) ∧ (∀ x, r.funct7 = some x → x = f7) := by
  unfold lookup at h
  split at h
  · next h1 =>
    obtain rfl := Option.some.inj h
    obtain ⟨a, b, c, d⟩ := findRow_some h1
    exact ⟨a, b, fun x hx => Option.some.inj (hx.symm.trans c), fun x hx => Option.some.inj (hx.symm.trans d)⟩
  · split at h
    · next h1 =>
      obtain rfl := Option.some.inj h
      obtain ⟨a, b, c, d⟩ := findRow_some h1
      exact ⟨a, b, fun x hx => Option.some.inj (hx.symm.trans c), fun x hx => by simp [d] at hx⟩
    · obtain ⟨a, b, c, d⟩ := findRow_some h
      exact ⟨a, b, fun x hx => by simp [c] at hx, fun x hx => by simp [d] at hx⟩

/-- The lookup answers the row of an operation on any fields that carry that row's codes. -/
theorem lookup_row (o : Op) (f3 : BitVec 3) (f7 : BitVec 7) (h3 : ∀ x, o.row.funct3 = some x → f3 = x)
    (h7 : ∀ x, o.row.funct7 = some x → f7 = x) : lookup o.row.opcode f3 f7 = some o.row := by
  cases o <;> simp only [Op.row, Option.some.injEq, reduceCtorEq, IsEmpty.forall_iff, implies_true, forall_eq'] at h3 h7 <;>
    subst_vars <;> simp [lookup, findRow, decodeTable, Op.all, Op.row, List.find?]

end Sys2Proof
end

