-- ==== Sys2Proof/Laws/State.lean ====
section
/-! SUPPORT. One lemma per field per update of the state, and what each register operation does to a register read. -/

namespace Sys2Proof.Machine

variable (s : State) (r : StopReason) (q : Reg) (v p a : Word) (b : Byte)

/-! ### raise -/

@[simp] theorem State.raise_x : (s.raise r).x = s.x := rfl
@[simp] theorem State.raise_pc : (s.raise r).pc = s.pc := rfl
@[simp] theorem State.raise_mem : (s.raise r).mem = s.mem := rfl
@[simp] theorem State.raise_written : (s.raise r).written = s.written := rfl
@[simp] theorem State.raise_terminated : (s.raise r).terminated = true := rfl
@[simp] theorem State.raise_stopReason : (s.raise r).stopReason = some r := rfl
@[simp] theorem State.raise_cycles : (s.raise r).cycles = s.cycles := rfl

/-! ### retire -/

@[simp] theorem State.retire_x : (s.retire p).x = s.x := rfl
@[simp] theorem State.retire_pc : (s.retire p).pc = p := rfl
@[simp] theorem State.retire_mem : (s.retire p).mem = s.mem := rfl
@[simp] theorem State.retire_written : (s.retire p).written = s.written := rfl
@[simp] theorem State.retire_terminated : (s.retire p).terminated = s.terminated := rfl
@[simp] theorem State.retire_stopReason : (s.retire p).stopReason = s.stopReason := rfl
@[simp] theorem State.retire_cycles : (s.retire p).cycles = s.cycles + 1 := rfl
@[simp] theorem State.retire_readReg : (s.retire p).readReg q = s.readReg q := rfl
@[simp] theorem State.retire_readByte : (s.retire p).readByte a = s.readByte a := rfl
@[simp] theorem State.retire_isWritten : (s.retire p).isWritten a = s.isWritten a := rfl

/-! ### writeReg -/

/-- A write to register 0 is dropped. -/
@[simp] theorem State.writeReg_zero : s.writeReg 0 v = s := rfl

/-- The stored registers after a write. -/
theorem State.writeReg_x : (s.writeReg q v).x = if q = 0 then s.x else s.x.set q.val v q.isLt := by
  unfold State.writeReg
  split <;> rfl

@[simp] theorem State.writeReg_pc : (s.writeReg q v).pc = s.pc := by unfold State.writeReg; split <;> rfl
@[simp] theorem State.writeReg_mem : (s.writeReg q v).mem = s.mem := by unfold State.writeReg; split <;> rfl
@[simp] theorem State.writeReg_written : (s.writeReg q v).written = s.written := by
  unfold State.writeReg; split <;> rfl
@[simp] theorem State.writeReg_terminated : (s.writeReg q v).terminated = s.terminated := by
  unfold State.writeReg; split <;> rfl
@[simp] theorem State.writeReg_stopReason : (s.writeReg q v).stopReason = s.stopReason := by
  unfold State.writeReg; split <;> rfl
@[simp] theorem State.writeReg_cycles : (s.writeReg q v).cycles = s.cycles := by
  unfold State.writeReg; split <;> rfl
@[simp] theorem State.writeReg_readByte : (s.writeReg q v).readByte a = s.readByte a := by
  simp [State.readByte]
@[simp] theorem State.writeReg_isWritten : (s.writeReg q v).isWritten a = s.isWritten a := by
  simp [State.isWritten]

/-- Register 0 reads as 0. -/
@[simp] theorem State.readReg_zero : s.readReg 0 = 0#32 := rfl

/-- One stored register after a write. -/
theorem State.writeReg_get (k : Reg) :
    (s.writeReg q v).x.get k = if k = q ∧ q ≠ 0 then v else s.x.get k := by
  rw [State.writeReg_x]
  by_cases hq : q = 0
  · simp [hq]
  · simp only [hq, if_false, ne_eq, not_false_eq_true, and_true, Vector.get_eq_getElem, Vector.getElem_set, Fin.ext_iff,
      eq_comm]

/-- A register read after a register write. -/
theorem State.writeReg_readReg (k : Reg) :
    (s.writeReg q v).readReg k = if k = q ∧ k ≠ 0 then v else s.readReg k := by
  by_cases hk : k = 0
  · simp [hk]
  · by_cases hq : k = q
    · subst hq
      simp [State.readReg, hk, State.writeReg_get]
    · simp [State.readReg, hk, hq, State.writeReg_get]

/-! ### writeByte and memWrite -/

@[simp] theorem State.writeByte_x : (s.writeByte a b).x = s.x := rfl
@[simp] theorem State.writeByte_pc : (s.writeByte a b).pc = s.pc := rfl
@[simp] theorem State.writeByte_mem : (s.writeByte a b).mem = Memory.write s.mem a.toNat b := rfl
@[simp] theorem State.writeByte_written : (s.writeByte a b).written = Marks.add s.written a.toNat := rfl
@[simp] theorem State.writeByte_terminated : (s.writeByte a b).terminated = s.terminated := rfl
@[simp] theorem State.writeByte_stopReason : (s.writeByte a b).stopReason = s.stopReason := rfl
@[simp] theorem State.writeByte_cycles : (s.writeByte a b).cycles = s.cycles := rfl

/-- A memory write changes memory and the written marks and no other field. -/
theorem State.memWrite_fields (n : Nat) (w : BitVec (8 * n)) :
    s.memWrite a n w = { s with mem := (s.memWrite a n w).mem, written := (s.memWrite a n w).written } := by
  induction n generalizing s a with
  | zero => rfl
  | succ n ih =>
    rw [State.memWrite, ih]
    rfl

@[simp] theorem State.memWrite_x (n : Nat) (w : BitVec (8 * n)) : (s.memWrite a n w).x = s.x := by
  rw [State.memWrite_fields]
@[simp] theorem State.memWrite_pc (n : Nat) (w : BitVec (8 * n)) : (s.memWrite a n w).pc = s.pc := by
  rw [State.memWrite_fields]
@[simp] theorem State.memWrite_terminated (n : Nat) (w : BitVec (8 * n)) :
    (s.memWrite a n w).terminated = s.terminated := by
  rw [State.memWrite_fields]
@[simp] theorem State.memWrite_stopReason (n : Nat) (w : BitVec (8 * n)) :
    (s.memWrite a n w).stopReason = s.stopReason := by
  rw [State.memWrite_fields]
@[simp] theorem State.memWrite_cycles (n : Nat) (w : BitVec (8 * n)) : (s.memWrite a n w).cycles = s.cycles := by
  rw [State.memWrite_fields]
@[simp] theorem State.memWrite_readReg (n : Nat) (w : BitVec (8 * n)) :
    (s.memWrite a n w).readReg q = s.readReg q := by
  simp [State.readReg]

end Sys2Proof.Machine
end

