-- ==== Sys2Proof/Laws/Memory.lean ====
section
/-! SUPPORT. The memory list and the written marks: read after write, the canonical form kept, and what the wide
accesses do byte by byte. -/

namespace Sys2Proof.Machine

/-! ### The list -/

theorem Memory.read_erase (m : Memory) (a k : Nat) :
    Memory.read (Memory.erase m a) k = if k = a then Memory.unlisted else Memory.read m k := by
  induction m with
  | nil => simp [Memory.erase, Memory.read]
  | cons c m ih =>
    obtain ⟨c, b⟩ := c
    unfold Memory.erase at ih ⊢
    by_cases hc : c = a
    · subst hc
      simp only [ne_eq, not_true_eq_false, decide_false, Bool.false_eq_true, not_false_eq_true, List.filter_cons_of_neg, ih,
        Memory.read]
      by_cases hk : k = c <;> simp [hk, eq_comm]
    · rw [List.filter_cons_of_pos (by simpa using hc), Memory.read, ih, Memory.read]
      by_cases hk : c = k
      · simp [hk, hk ▸ hc]
      · simp [hk]

theorem Memory.read_insert (m : Memory) (a : Nat) (v : Byte) (k : Nat) (h : ∀ c ∈ m, c.1 ≠ a) :
    Memory.read (Memory.insert m a v) k = if k = a then v else Memory.read m k := by
  induction m with
  | nil => simp [Memory.insert, Memory.read, eq_comm]
  | cons c m ih =>
    obtain ⟨c, b⟩ := c
    have hc : c ≠ a := h (c, b) (by simp)
    have ih := ih fun d hd => h d (by simp [hd])
    unfold Memory.insert
    by_cases hl : a < c
    · simp [hl, Memory.read, eq_comm]
    · simp only [hl, if_false, Memory.read, ih]
      by_cases hk : c = k
      · simp [hk, hk ▸ hc]
      · simp [hk]

theorem Memory.mem_erase {m : Memory} {a : Nat} {c : Host.Cell} : c ∈ Memory.erase m a ↔ c ∈ m ∧ c.1 ≠ a := by
  simp [Memory.erase]

theorem Memory.mem_insert {m : Memory} {a : Nat} {v : Byte} {c : Host.Cell} :
    c ∈ Memory.insert m a v ↔ c = (a, v) ∨ c ∈ m := by
  induction m with
  | nil => simp [Memory.insert]
  | cons d m ih =>
    unfold Memory.insert
    split
    · simp
    · simp only [List.mem_cons, ih]
      tauto

/-- Reading after one byte write: the written key gives the byte, every other key what it gave. -/
theorem Memory.read_write (m : Memory) (a : Nat) (v : Byte) (k : Nat) :
    Memory.read (Memory.write m a v) k = if k = a then v else Memory.read m k := by
  unfold Memory.write
  split
  · next h => rw [Memory.read_erase, h]
  · rw [Memory.read_insert _ _ _ _ (fun c hc => (Memory.mem_erase.1 hc).2), Memory.read_erase]
    split <;> rfl

/-- What a byte write lists: the new entry when it is listed at all, and the old entries at other keys. -/
theorem Memory.mem_write {m : Memory} {a : Nat} {v : Byte} {c : Host.Cell} :
    c ∈ Memory.write m a v ↔ (c = (a, v) ∧ v ≠ Memory.unlisted) ∨ (c ∈ m ∧ c.1 ≠ a) := by
  unfold Memory.write
  split
  · next h => simp [Memory.mem_erase, h]
  · next h => simp [Memory.mem_insert, Memory.mem_erase, h]

theorem Memory.insert_sorted {m : Memory} {a : Nat} {v : Byte} (hm : m.Pairwise (fun c d => c.1 < d.1))
    (ha : ∀ c ∈ m, c.1 ≠ a) : (Memory.insert m a v).Pairwise (fun c d => c.1 < d.1) := by
  induction m with
  | nil => simp [Memory.insert]
  | cons c m ih =>
    obtain ⟨hc, hm⟩ := List.pairwise_cons.1 hm
    have hca : c.1 ≠ a := ha c (by simp)
    have ih := ih hm fun d hd => ha d (by simp [hd])
    unfold Memory.insert
    split
    · next hl =>
      refine List.pairwise_cons.2 ⟨fun d hd => ?_, List.pairwise_cons.2 ⟨hc, hm⟩⟩
      rcases List.mem_cons.1 hd with rfl | hd
      · exact hl
      · exact Nat.lt_trans hl (hc d hd)
    · next hl =>
      refine List.pairwise_cons.2 ⟨fun d hd => ?_, ih⟩
      rcases Memory.mem_insert.1 hd with rfl | hd
      · simp only; omega
      · exact hc d hd

/-- A byte write keeps the canonical form. -/
theorem Memory.write_wf {m : Memory} {a : Nat} {v : Byte} (hm : Memory.wf m) (ha : a < 2 ^ 32) :
    Memory.wf (Memory.write m a v) := by
  constructor
  · have he : (Memory.erase m a).Pairwise (fun c d => c.1 < d.1) := hm.1.filter _
    unfold Memory.write
    split
    · exact he
    · exact Memory.insert_sorted he fun c hc => (Memory.mem_erase.1 hc).2
  · intro c hc
    rcases Memory.mem_write.1 hc with ⟨rfl, hv⟩ | ⟨hc, -⟩
    · exact ⟨ha, hv⟩
    · exact hm.2 c hc

/-! ### The written marks -/

theorem Marks.mem_add {w : List Nat} {a k : Nat} : k ∈ Marks.add w a ↔ k = a ∨ k ∈ w := by
  induction w with
  | nil => simp [Marks.add]
  | cons c w ih =>
    unfold Marks.add
    split
    · simp
    · split
      · next h => subst h; simp
      · simp only [List.mem_cons, ih]
        tauto

/-- An address is written after a mark when it is the marked one or was written. -/
theorem Marks.has_add (w : List Nat) (a k : Nat) : Marks.has (Marks.add w a) k = (decide (k = a) || Marks.has w k) := by
  simp [Marks.has, Marks.mem_add]

/-- Marking keeps the form of the marks. -/
theorem Marks.add_wf {w : List Nat} {a : Nat} (hw : Marks.wf w) (ha : a < 2 ^ 32) : Marks.wf (Marks.add w a) := by
  refine ⟨?_, fun k hk => ?_⟩
  · have hs := hw.1
    clear hw ha
    induction w with
    | nil => simp [Marks.add]
    | cons c w ih =>
      obtain ⟨hc, hw⟩ := List.pairwise_cons.1 hs
      unfold Marks.add
      split
      · next hl =>
        refine List.pairwise_cons.2 ⟨fun d hd => ?_, hs⟩
        rcases List.mem_cons.1 hd with rfl | hd
        · exact hl
        · exact Nat.lt_trans hl (hc d hd)
      · split
        · exact hs
        · refine List.pairwise_cons.2 ⟨fun d hd => ?_, ih hw⟩
          rcases Marks.mem_add.1 hd with rfl | hd
          · omega
          · exact hc d hd
  · rcases Marks.mem_add.1 hk with rfl | hk
    · exact ha
    · exact hw.2 k hk

/-! ### Bytes of the state -/

/-- A byte read after a byte write. -/
theorem State.writeByte_readByte (s : State) (a : Word) (b : Byte) (k : Word) :
    (s.writeByte a b).readByte k = if k = a then b else s.readByte k := by
  simp [State.readByte, Memory.read_write, BitVec.toNat_inj]

/-- The written mark after a byte write. -/
theorem State.writeByte_isWritten (s : State) (a : Word) (b : Byte) (k : Word) :
    (s.writeByte a b).isWritten k = (decide (k = a) || s.isWritten k) := by
  simp [State.isWritten, Marks.has_add, BitVec.toNat_inj]

/-- A wide read, byte by byte: bits `8i+7 : 8i` come from address `a + i`. -/
theorem State.memRead_byte (s : State) (a : Word) (n i : Nat) (hi : i < n) :
    (s.memRead a n).extractLsb' (8 * i) 8 = s.readByte (a + BitVec.ofNat 32 i) := by
  induction n generalizing a i with
  | zero => omega
  | succ n ih =>
    rw [State.memRead]
    cases i with
    | zero =>
      simp only [Nat.mul_zero, BitVec.add_zero]
      ext k hk
      simp [BitVec.getLsbD_append, hk]
    | succ i =>
      have h := ih (a + 1#32) i (by omega)
      have ha : a + BitVec.ofNat 32 (i + 1) = a + 1#32 + BitVec.ofNat 32 i := by
        rw [BitVec.add_assoc, BitVec.ofNat_add, BitVec.add_comm (BitVec.ofNat 32 i)]
      rw [ha, ← h]
      ext k hk
      have h1 : ¬ 8 * (i + 1) + k < 8 := by omega
      have h2 : 8 * (i + 1) + k - 8 = 8 * i + k := by omega
      simp [BitVec.getLsbD_append, h1, h2]

/-- A wide read depends on the bytes alone. -/
theorem State.memRead_congr {s s' : State} (h : ∀ a, s'.readByte a = s.readByte a) (a : Word) (n : Nat) :
    s'.memRead a n = s.memRead a n := by
  induction n generalizing a with
  | zero => rfl
  | succ n ih => simp only [State.memRead, ih, h]

/-- Nothing in front of a byte is the byte. -/
theorem nil_append_byte (b : Byte) : ((0#0 ++ b : BitVec (0 + 8)) : BitVec 8) = b := by
  apply BitVec.eq_of_toNat_eq
  exact (BitVec.toNat_append ..).trans (by simp)

/-- The reads of one, two and four bytes, byte by byte. -/
theorem State.memRead_one (s : State) (a : Word) : s.memRead a 1 = s.readByte a :=
  nil_append_byte _

theorem State.memRead_two (s : State) (a : Word) : s.memRead a 2 = s.readByte (a + 1#32) ++ s.readByte a :=
  congrArg (fun b : Byte => b ++ s.readByte a) (s.memRead_one (a + 1#32))

theorem State.memRead_four (s : State) (a : Word) :
    s.memRead a 4 =
      s.readByte (a + 3#32) ++ s.readByte (a + 2#32) ++ s.readByte (a + 1#32) ++ s.readByte a := by
  have h2 : a + 1#32 + 1#32 = a + 2#32 := by bv_omega
  have h3 : a + 2#32 + 1#32 = a + 3#32 := by bv_omega
  have h : s.memRead a 4 =
      (fun b : BitVec 16 => b ++ s.readByte (a + 1#32) ++ s.readByte a) (s.memRead (a + 1#32 + 1#32) 2) := rfl
  rw [h, h2, State.memRead_two, h3]

/-- A byte read after a wide write: the written addresses, modulo 2^32, give their byte, the others what they gave. -/
theorem State.memWrite_readByte (s : State) (a : Word) (n : Nat) (v : BitVec (8 * n)) (hn : n ≤ 2 ^ 32) (k : Word) :
    (s.memWrite a n v).readByte k =
      if (k - a).toNat < n then v.extractLsb' (8 * (k - a).toNat) 8 else s.readByte k := by
  induction n generalizing s a with
  | zero => rfl
  | succ n ih =>
    rw [State.memWrite, ih _ _ _ (by omega), State.writeByte_readByte]
    by_cases hka : k = a
    · subst hka
      have h1 : ¬ (k - (k + 1#32)).toNat < n := by bv_omega
      have h2 : (k - k).toNat = 0 := by bv_omega
      rw [if_neg h1, if_pos rfl, h2, if_pos n.succ_pos]
    · have h0 : (k - (a + 1#32)).toNat = (k - a).toNat - 1 := by bv_omega
      have h1 : (k - a).toNat ≠ 0 := by bv_omega
      rw [h0, if_neg hka]
      generalize (k - a).toNat = d at h1
      by_cases h2 : d < n + 1
      · rw [if_pos (by omega), if_pos h2]
        ext j hj
        have h3 : 8 * (d - 1) + j < 8 * n := by omega
        have h4 : 8 + (8 * (d - 1) + j) = 8 * d + j := by omega
        simp [h3, h4]
      · rw [if_neg (by omega), if_neg h2]

/-- The written marks after a wide write. -/
theorem State.memWrite_isWritten (s : State) (a : Word) (n : Nat) (v : BitVec (8 * n)) (hn : n ≤ 2 ^ 32) (k : Word) :
    (s.memWrite a n v).isWritten k = (decide ((k - a).toNat < n) || s.isWritten k) := by
  induction n generalizing s a with
  | zero => simp [State.memWrite]
  | succ n ih =>
    rw [State.memWrite, ih _ _ _ (by omega), State.writeByte_isWritten]
    by_cases hka : k = a
    · subst hka
      simp
    · have h0 : (k - (a + 1#32)).toNat = (k - a).toNat - 1 := by bv_omega
      have h1 : (k - a).toNat ≠ 0 := by bv_omega
      have h2 : (k - a).toNat - 1 < n ↔ (k - a).toNat < n + 1 := by omega
      rw [h0, decide_eq_decide.2 h2, decide_eq_false hka, Bool.false_or]

/-! ### The form of a state -/

/-- Every operation below keeps the form of a state. -/
theorem State.raise_wf {s : State} {r : StopReason} (h : s.wf) : (s.raise r).wf :=
  ⟨h.1, h.2.1, h.2.2.1, h.2.2.2.1, rfl⟩

theorem State.retire_wf {s : State} {p : Word} (h : s.wf) : (s.retire p).wf := h

theorem State.writeReg_wf {s : State} {q : Reg} {v : Word} (h : s.wf) : (s.writeReg q v).wf := by
  obtain ⟨h1, h2, h3, h4, h5⟩ := h
  refine ⟨by simpa using h1, by simpa using h2, by simpa using h3, ?_, by simpa using h5⟩
  rw [State.writeReg_get]
  split
  · next hq => exact absurd hq.1.symm hq.2
  · exact h4

theorem State.writeByte_wf {s : State} {a : Word} {b : Byte} (h : s.wf) : (s.writeByte a b).wf := by
  obtain ⟨h1, h2, h3, h4, h5⟩ := h
  refine ⟨Memory.write_wf h1 a.isLt, Marks.add_wf h2 a.isLt, fun c hc => ?_, h4, h5⟩
  rcases Memory.mem_write.1 hc with ⟨rfl, -⟩ | ⟨hc, -⟩
  · exact Marks.mem_add.2 (.inl rfl)
  · exact Marks.mem_add.2 (.inr (h3 c hc))

theorem State.memWrite_wf {s : State} {a : Word} {n : Nat} {v : BitVec (8 * n)} (h : s.wf) :
    (s.memWrite a n v).wf := by
  induction n generalizing s a with
  | zero => exact h
  | succ n ih => exact ih (State.writeByte_wf h)

end Sys2Proof.Machine
end

