-- ==== Sys2Proof/Laws/Exec.lean ====
section
/-! SUPPORT. Everything one instruction can do: the outcomes of the shared operations in the terms of claims, and the
case split of `exec` by outcome. -/

namespace Sys2Proof.Machine

/-! ### The shared operations -/

/-- Completing with a register write does exactly that. -/
theorem completes_of_completeTo {i : Instr} {s : State} {rd : Reg} {v p : Word} (h : exec i s = completeTo rd v p s) :
    CompletesWriting i s rd v p :=
  ⟨_, h, fun r => by simp [State.writeReg_readReg], by simp, by simp, by simp [SameFlag], by simp [SameMemory]⟩

/-- A branch completes at its target when taken, else at the next address. -/
theorem completes_of_completeBranch {i : Instr} {s : State} {c : Bool} {p : Word} (h : exec i s = completeBranch c p s) :
    CompletesAt i s (if c then p else s.pc + 4#32) :=
  ⟨_, h, fun _ => rfl, rfl, rfl, ⟨rfl, rfl⟩, fun _ => ⟨rfl, rfl⟩⟩

/-- A stop sets the flag and the reason and leaves every other field. -/
theorem stops_of_stopWith {i : Instr} {s : State} {r : StopReason} (h : exec i s = stopWith r s) : StopsWith i s r := h

/-! ### exec -/

/-- The four outcomes of an instruction. -/
inductive ExecOutcome (i : Instr) (s : State) : Prop where
  /-- It stops with an execute error. -/
  | stop (e : ExecuteError) (h : raises i s = some e) (hx : exec i s = stopWith (.executeError e) s)
  /-- It completes and writes its destination register. -/
  | write (rd : Reg) (v p : Word) (h : raises i s = none) (hd : i.dest = some rd) (hx : exec i s = completeTo rd v p s)
  /-- It completes and stores. -/
  | store (ea : Word) (n : Nat) (v : BitVec (8 * n)) (h : raises i s = none) (hf : i.format = .S) (hn : n ≤ 8)
      (hd : i.dest = none) (hx : exec i s = completeStore ea n v s)
  /-- It completes as a branch. -/
  | branch (c : Bool) (p : Word) (h : raises i s = none) (hf : i.format = .SB) (hd : i.dest = none)
      (hx : exec i s = completeBranch c p s)

theorem executeShift_outcome {i : Instr} {s : State} {f : Word → Nat → Word} {rd rs1 rs2 : Reg}
    (hr : raises i s = if (s.readReg rs2).toInt < 0 then some .negativeShift else none) (hd : i.dest = some rd)
    (hx : exec i s = executeShift f rd rs1 rs2 s) : ExecOutcome i s := by
  unfold executeShift isNegative at hx
  split at hx
  · next h => exact .stop _ (by rw [hr, if_pos (of_decide_eq_true h)]) hx
  · next h => exact .write _ _ _ (by rw [hr, if_neg (by simpa using h)]) hd hx

theorem executeDivision_outcome {i : Instr} {s : State} {f : Word → Word → Word} {rd rs1 rs2 : Reg}
    (hr : raises i s = if s.readReg rs2 = 0#32 then some .divideByZero else none) (hd : i.dest = some rd)
    (hx : exec i s = executeDivision f rd rs1 rs2 s) : ExecOutcome i s := by
  unfold executeDivision isZero at hx
  split at hx
  · next h => exact .stop _ (by rw [hr, if_pos (eq_of_beq h)]) hx
  · next h => exact .write _ _ _ (by rw [hr, if_neg (by simpa using h)]) hd hx

/-- Every instruction in every state has one of the four outcomes. -/
theorem exec_outcome (i : Instr) (s : State) : ExecOutcome i s := by
  cases i with
  | sll | srl | sra => exact executeShift_outcome rfl rfl rfl
  | div | rem => exact executeDivision_outcome rfl rfl rfl
  | sb | sh | sw | sd => exact .store _ _ _ rfl rfl (by decide) rfl rfl
  | beq | bne | blt | bge => exact .branch _ _ rfl rfl rfl rfl
  | _ => exact .write _ _ _ rfl rfl rfl

end Sys2Proof.Machine
end

