-- ==== Sys2Proof/Laws/PerInstr.lean ====
section
/-! SUPPORT. The family EncodedRow: the word an instruction is encoded to carries the key of that instruction's row, so
the lookup answers that row.  One lemma per constructor. -/

namespace Sys2Proof.Laws.EncodedRow

/-- The lookup on the encoded word answers the instruction's own row (R100). -/
def Statement (i : Instr) : Prop :=
  lookup (opcodeOf (encode i)) (funct3Of (encode i)) (funct7Of (encode i)) = some i.op.row

/-- From the three fields of the encoded word to the statement. -/
theorem of_fields {i : Instr} (ho : opcodeOf (encode i) = i.op.row.opcode)
    (h3 : ∀ x, i.op.row.funct3 = some x → funct3Of (encode i) = x)
    (h7 : ∀ x, i.op.row.funct7 = some x → funct7Of (encode i) = x) : Statement i := by
  unfold Statement
  rw [ho]
  exact lookup_row _ _ _ h3 h7

/-- The function code bits of a row that has them. -/
theorem f3_of_some {r : Row} {x : BitVec 3} (h : r.funct3 = some x) : r.f3 = x := by simp [Row.f3, h]
theorem f7_of_some {r : Row} {x : BitVec 7} (h : r.funct7 = some x) : r.f7 = x := by simp [Row.f7, h]

/-- A row without a funct7 code constrains nothing there. -/
theorem no_code {n : Nat} {c : Option (BitVec n)} {p : BitVec n → Prop} (h : c = none) : ∀ x, c = some x → p x :=
  fun _ hx => by simp [h] at hx

theorem add (rd rs1 rs2 : Reg) : Statement (.add rd rs1 rs2) :=
  of_fields (opcodeOf_encodeR ..) (fun _ h => (funct3Of_encodeR ..).trans (f3_of_some h)) (fun _ h => (funct7Of_encodeR ..).trans (f7_of_some h))
theorem sub (rd rs1 rs2 : Reg) : Statement (.sub rd rs1 rs2) :=
  of_fields (opcodeOf_encodeR ..) (fun _ h => (funct3Of_encodeR ..).trans (f3_of_some h)) (fun _ h => (funct7Of_encodeR ..).trans (f7_of_some h))
theorem sll (rd rs1 rs2 : Reg) : Statement (.sll rd rs1 rs2) :=
  of_fields (opcodeOf_encodeR ..) (fun _ h => (funct3Of_encodeR ..).trans (f3_of_some h)) (fun _ h => (funct7Of_encodeR ..).trans (f7_of_some h))
theorem slt (rd rs1 rs2 : Reg) : Statement (.slt rd rs1 rs2) :=
  of_fields (opcodeOf_encodeR ..) (fun _ h => (funct3Of_encodeR ..).trans (f3_of_some h)) (fun _ h => (funct7Of_encodeR ..).trans (f7_of_some h))
theorem xor (rd rs1 rs2 : Reg) : Statement (.xor rd rs1 rs2) :=
  of_fields (opcodeOf_encodeR ..) (fun _ h => (funct3Of_encodeR ..).trans (f3_of_some h)) (fun _ h => (funct7Of_encodeR ..).trans (f7_of_some h))
theorem srl (rd rs1 rs2 : Reg) : Statement (.srl rd rs1 rs2) :=
  of_fields (opcodeOf_encodeR ..) (fun _ h => (funct3Of_encodeR ..).trans (f3_of_some h)) (fun _ h => (funct7Of_encodeR ..).trans (f7_of_some h))
theorem sra (rd rs1 rs2 : Reg) : Statement (.sra rd rs1 rs2) :=
  of_fields (opcodeOf_encodeR ..) (fun _ h => (funct3Of_encodeR ..).trans (f3_of_some h)) (fun _ h => (funct7Of_encodeR ..).trans (f7_of_some h))
theorem or (rd rs1 rs2 : Reg) : Statement (.or rd rs1 rs2) :=
  of_fields (opcodeOf_encodeR ..) (fun _ h => (funct3Of_encodeR ..).trans (f3_of_some h)) (fun _ h => (funct7Of_encodeR ..).trans (f7_of_some h))
theorem and (rd rs1 rs2 : Reg) : Statement (.and rd rs1 rs2) :=
  of_fields (opcodeOf_encodeR ..) (fun _ h => (funct3Of_encodeR ..).trans (f3_of_some h)) (fun _ h => (funct7Of_encodeR ..).trans (f7_of_some h))
theorem mul (rd rs1 rs2 : Reg) : Statement (.mul rd rs1 rs2) :=
  of_fields (opcodeOf_encodeR ..) (fun _ h => (funct3Of_encodeR ..).trans (f3_of_some h)) (fun _ h => (funct7Of_encodeR ..).trans (f7_of_some h))
theorem div (rd rs1 rs2 : Reg) : Statement (.div rd rs1 rs2) :=
  of_fields (opcodeOf_encodeR ..) (fun _ h => (funct3Of_encodeR ..).trans (f3_of_some h)) (fun _ h => (funct7Of_encodeR ..).trans (f7_of_some h))
theorem rem (rd rs1 rs2 : Reg) : Statement (.rem rd rs1 rs2) :=
  of_fields (opcodeOf_encodeR ..) (fun _ h => (funct3Of_encodeR ..).trans (f3_of_some h)) (fun _ h => (funct7Of_encodeR ..).trans (f7_of_some h))
theorem addi (rd rs1 : Reg) (imm : BitVec 12) : Statement (.addi rd rs1 imm) :=
  of_fields (opcodeOf_encodeI ..) (fun _ h => (funct3Of_encodeI ..).trans (f3_of_some h)) (no_code rfl)
theorem andi (rd rs1 : Reg) (imm : BitVec 12) : Statement (.andi rd rs1 imm) :=
  of_fields (opcodeOf_encodeI ..) (fun _ h => (funct3Of_encodeI ..).trans (f3_of_some h)) (no_code rfl)
theorem ori (rd rs1 : Reg) (imm : BitVec 12) : Statement (.ori rd rs1 imm) :=
  of_fields (opcodeOf_encodeI ..) (fun _ h => (funct3Of_encodeI ..).trans (f3_of_some h)) (no_code rfl)
theorem lb (rd rs1 : Reg) (imm : BitVec 12) : Statement (.lb rd rs1 imm) :=
  of_fields (opcodeOf_encodeI ..) (fun _ h => (funct3Of_encodeI ..).trans (f3_of_some h)) (no_code rfl)
theorem lh (rd rs1 : Reg) (imm : BitVec 12) : Statement (.lh rd rs1 imm) :=
  of_fields (opcodeOf_encodeI ..) (fun _ h => (funct3Of_encodeI ..).trans (f3_of_some h)) (no_code rfl)
theorem lw (rd rs1 : Reg) (imm : BitVec 12) : Statement (.lw rd rs1 imm) :=
  of_fields (opcodeOf_encodeI ..) (fun _ h => (funct3Of_encodeI ..).trans (f3_of_some h)) (no_code rfl)
theorem ld (rd rs1 : Reg) (imm : BitVec 12) : Statement (.ld rd rs1 imm) :=
  of_fields (opcodeOf_encodeI ..) (fun _ h => (funct3Of_encodeI ..).trans (f3_of_some h)) (no_code rfl)
theorem lbu (rd rs1 : Reg) (imm : BitVec 12) : Statement (.lbu rd rs1 imm) :=
  of_fields (opcodeOf_encodeI ..) (fun _ h => (funct3Of_encodeI ..).trans (f3_of_some h)) (no_code rfl)
theorem sb (rs1 rs2 : Reg) (imm : BitVec 12) : Statement (.sb rs1 rs2 imm) :=
  of_fields (opcodeOf_encodeS ..) (fun _ h => (funct3Of_encodeS ..).trans (f3_of_some h)) (no_code rfl)
theorem sh (rs1 rs2 : Reg) (imm : BitVec 12) : Statement (.sh rs1 rs2 imm) :=
  of_fields (opcodeOf_encodeS ..) (fun _ h => (funct3Of_encodeS ..).trans (f3_of_some h)) (no_code rfl)
theorem sw (rs1 rs2 : Reg) (imm : BitVec 12) : Statement (.sw rs1 rs2 imm) :=
  of_fields (opcodeOf_encodeS ..) (fun _ h => (funct3Of_encodeS ..).trans (f3_of_some h)) (no_code rfl)
theorem sd (rs1 rs2 : Reg) (imm : BitVec 12) : Statement (.sd rs1 rs2 imm) :=
  of_fields (opcodeOf_encodeS ..) (fun _ h => (funct3Of_encodeS ..).trans (f3_of_some h)) (no_code rfl)
theorem beq (rs1 rs2 : Reg) (imm : BitVec 13) : Statement (.beq rs1 rs2 imm) :=
  of_fields (opcodeOf_encodeSB ..) (fun _ h => (funct3Of_encodeSB ..).trans (f3_of_some h)) (no_code rfl)
theorem bne (rs1 rs2 : Reg) (imm : BitVec 13) : Statement (.bne rs1 rs2 imm) :=
  of_fields (opcodeOf_encodeSB ..) (fun _ h => (funct3Of_encodeSB ..).trans (f3_of_some h)) (no_code rfl)
theorem blt (rs1 rs2 : Reg) (imm : BitVec 13) : Statement (.blt rs1 rs2 imm) :=
  of_fields (opcodeOf_encodeSB ..) (fun _ h => (funct3Of_encodeSB ..).trans (f3_of_some h)) (no_code rfl)
theorem bge (rs1 rs2 : Reg) (imm : BitVec 13) : Statement (.bge rs1 rs2 imm) :=
  of_fields (opcodeOf_encodeSB ..) (fun _ h => (funct3Of_encodeSB ..).trans (f3_of_some h)) (no_code rfl)
theorem auipc (rd : Reg) (imm : BitVec 20) : Statement (.auipc rd imm) :=
  of_fields (opcodeOf_encodeU ..) (no_code rfl) (no_code rfl)
theorem lui (rd : Reg) (imm : BitVec 20) : Statement (.lui rd imm) :=
  of_fields (opcodeOf_encodeU ..) (no_code rfl) (no_code rfl)
theorem jal (rd : Reg) (imm : BitVec 21) : Statement (.jal rd imm) :=
  of_fields (opcodeOf_encodeUJ ..) (no_code rfl) (no_code rfl)
theorem jalr (rd rs1 : Reg) (imm : BitVec 12) : Statement (.jalr rd rs1 imm) :=
  of_fields (opcodeOf_encodeI ..) (fun _ h => (funct3Of_encodeI ..).trans (f3_of_some h)) (no_code rfl)

end Sys2Proof.Laws.EncodedRow
end

