-- ==== Sys2Proof/Laws/Step.lean ====
section
/-! SUPPORT. What one iteration of the run loop is, by its three cases, and what the control signals select. -/

namespace Sys2Proof.Machine

theorem step_of_terminated {s : State} (h : s.terminated = true) : step s = .fault .terminated := by
  simp [step, h]

theorem step_of_decode {s : State} {i : Instr} (h : s.terminated = false) (hd : decode s.fetch = .ok i) :
    step s = exec i s := by
  simp [step, h, hd]

theorem step_of_reject {s : State} {r : Reject} (h : s.terminated = false) (hd : decode s.fetch = .error r) :
    step s = stopWith (rejectReason r) s := by
  simp [step, h, hd]

/-- A step that answers a next state came from a running state and either ran the decoded instruction or raised the
condition of a rejected word. -/
theorem step_cases {s t : State} (h : step s = .next t) :
    s.terminated = false ∧
      ((∃ i, decode s.fetch = .ok i ∧ exec i s = .next t) ∨
        (∃ r, decode s.fetch = .error r ∧ t = s.raise (rejectReason r))) := by
  unfold step at h
  split at h
  · cases h
  · next ht =>
    refine ⟨by simpa using ht, ?_⟩
    split at h
    · next i hd => exact .inl ⟨i, hd, h⟩
    · next r hd => exact .inr ⟨r, hd, by cases h; rfl⟩

/-- The two control signals select the next `pc` as stage M does: the absolute target, or `pc` incremented (R36). -/
theorem selectPc_eq_controlSignals (pc : Word) (r : ExecutionResult) :
    selectPc pc r.nextPc = r.pcSelect.getD (pc + r.incSelect) := by
  rcases r with ⟨_, _, _ | _ | _⟩ <;> rfl

end Sys2Proof.Machine
end

