-- ==== Sys2Proof/Tests/Slice0.lean ====
section
/-! SUPPORT. Tests: the ill-formed terms WellFormed refuses, one written-out word per row of the table, one or two
single steps per instruction, and a witness for the hypotheses of each statement.  Expected values are those of the
worked vectors of 95_test_vectors.md (named in each comment) or of the rules' own examples. -/

namespace Sys2Proof.Tests

open Sys2Proof.Machine

/-! ### WellFormed -/

theorem test_odd_beq_offset_is_ill_formed : WellFormed (.beq 6 7 9#13) = false := by decide
theorem test_odd_bne_offset_is_ill_formed : WellFormed (.bne 6 7 1#13) = false := by decide
theorem test_odd_blt_offset_is_ill_formed : WellFormed (.blt 6 7 0x1FFF#13) = false := by decide
theorem test_odd_bge_offset_is_ill_formed : WellFormed (.bge 6 7 0x0FFF#13) = false := by decide
theorem test_odd_jal_offset_is_ill_formed : WellFormed (.jal 1 0x1FFFFF#21) = false := by decide

/-! ### Decode: one word per row, its fields written out (30_encoding.md R83 to R88, R101 to R106; section 2.2) -/

/-- The word decodes to the instruction and the instruction encodes to the word. -/
abbrev Stands (w : Word) (i : Instr) : Prop := decode w = .ok i ∧ encode i = w ∧ WellFormed i = true

theorem test_word_add :
    Stands (0b0000000#7 ++ 0b00111#5 ++ 0b00110#5 ++ 0b000#3 ++ 0b00101#5 ++ 0b0110011#7) (.add 5 6 7) := by decide
theorem test_word_sub :
    Stands (0b0100000#7 ++ 0b00111#5 ++ 0b00110#5 ++ 0b000#3 ++ 0b00101#5 ++ 0b0110011#7) (.sub 5 6 7) := by decide
theorem test_word_sll :
    Stands (0b0000000#7 ++ 0b00111#5 ++ 0b00110#5 ++ 0b001#3 ++ 0b00101#5 ++ 0b0110011#7) (.sll 5 6 7) := by decide
theorem test_word_slt :
    Stands (0b0000000#7 ++ 0b00111#5 ++ 0b00110#5 ++ 0b010#3 ++ 0b00101#5 ++ 0b0110011#7) (.slt 5 6 7) := by decide
theorem test_word_xor :
    Stands (0b0000000#7 ++ 0b00111#5 ++ 0b00110#5 ++ 0b100#3 ++ 0b00101#5 ++ 0b0110011#7) (.xor 5 6 7) := by decide
theorem test_word_srl :
    Stands (0b0000000#7 ++ 0b00111#5 ++ 0b00110#5 ++ 0b101#3 ++ 0b00101#5 ++ 0b0110011#7) (.srl 5 6 7) := by decide
theorem test_word_sra :
    Stands (0b0100000#7 ++ 0b00111#5 ++ 0b00110#5 ++ 0b101#3 ++ 0b00101#5 ++ 0b0110011#7) (.sra 5 6 7) := by decide
theorem test_word_or :
    Stands (0b0000000#7 ++ 0b00111#5 ++ 0b00110#5 ++ 0b110#3 ++ 0b00101#5 ++ 0b0110011#7) (.or 5 6 7) := by decide
theorem test_word_and :
    Stands (0b0000000#7 ++ 0b00111#5 ++ 0b00110#5 ++ 0b111#3 ++ 0b00101#5 ++ 0b0110011#7) (.and 5 6 7) := by decide
theorem test_word_mul :
    Stands (0b0000001#7 ++ 0b00111#5 ++ 0b00110#5 ++ 0b000#3 ++ 0b00101#5 ++ 0b0110011#7) (.mul 5 6 7) := by decide
theorem test_word_div :
    Stands (0b0000001#7 ++ 0b00111#5 ++ 0b00110#5 ++ 0b100#3 ++ 0b00101#5 ++ 0b0110011#7) (.div 5 6 7) := by decide
theorem test_word_rem :
    Stands (0b0000001#7 ++ 0b00111#5 ++ 0b00110#5 ++ 0b110#3 ++ 0b00101#5 ++ 0b0110011#7) (.rem 5 6 7) := by decide
theorem test_word_addi :
    Stands (0b111111111101#12 ++ 0b00110#5 ++ 0b000#3 ++ 0b00101#5 ++ 0b0010011#7) (.addi 5 6 0xFFD#12) := by decide
theorem test_word_andi :
    Stands (0b111111111101#12 ++ 0b00110#5 ++ 0b111#3 ++ 0b00101#5 ++ 0b0010011#7) (.andi 5 6 0xFFD#12) := by decide
theorem test_word_ori :
    Stands (0b111111111101#12 ++ 0b00110#5 ++ 0b110#3 ++ 0b00101#5 ++ 0b0010011#7) (.ori 5 6 0xFFD#12) := by decide
theorem test_word_lb :
    Stands (0b111111111101#12 ++ 0b00110#5 ++ 0b000#3 ++ 0b00101#5 ++ 0b0000011#7) (.lb 5 6 0xFFD#12) := by decide
theorem test_word_lh :
    Stands (0b111111111101#12 ++ 0b00110#5 ++ 0b001#3 ++ 0b00101#5 ++ 0b0000011#7) (.lh 5 6 0xFFD#12) := by decide
theorem test_word_lw :
    Stands (0b111111111101#12 ++ 0b00110#5 ++ 0b010#3 ++ 0b00101#5 ++ 0b0000011#7) (.lw 5 6 0xFFD#12) := by decide
theorem test_word_ld :
    Stands (0b111111111101#12 ++ 0b00110#5 ++ 0b011#3 ++ 0b00101#5 ++ 0b0000011#7) (.ld 5 6 0xFFD#12) := by decide
theorem test_word_lbu :
    Stands (0b111111111101#12 ++ 0b00110#5 ++ 0b100#3 ++ 0b00101#5 ++ 0b0000011#7) (.lbu 5 6 0xFFD#12) := by decide
theorem test_word_sb :
    Stands (0b1111111#7 ++ 0b00111#5 ++ 0b00110#5 ++ 0b000#3 ++ 0b11101#5 ++ 0b0100011#7) (.sb 6 7 0xFFD#12) := by decide
theorem test_word_sh :
    Stands (0b1111111#7 ++ 0b00111#5 ++ 0b00110#5 ++ 0b001#3 ++ 0b11101#5 ++ 0b0100011#7) (.sh 6 7 0xFFD#12) := by decide
theorem test_word_sw :
    Stands (0b1111111#7 ++ 0b00111#5 ++ 0b00110#5 ++ 0b010#3 ++ 0b11101#5 ++ 0b0100011#7) (.sw 6 7 0xFFD#12) := by decide
theorem test_word_sd :
    Stands (0b1111111#7 ++ 0b00111#5 ++ 0b00110#5 ++ 0b011#3 ++ 0b11101#5 ++ 0b0100011#7) (.sd 6 7 0xFFD#12) := by decide
theorem test_word_beq :
    Stands (0b1#1 ++ 0b111111#6 ++ 0b00111#5 ++ 0b00110#5 ++ 0b000#3 ++ 0b1100#4 ++ 0b1#1 ++ 0b1100011#7) (.beq 6 7 0x1FF8#13) := by decide
theorem test_word_bne :
    Stands (0b1#1 ++ 0b111111#6 ++ 0b00111#5 ++ 0b00110#5 ++ 0b001#3 ++ 0b1100#4 ++ 0b1#1 ++ 0b1100011#7) (.bne 6 7 0x1FF8#13) := by decide
theorem test_word_blt :
    Stands (0b1#1 ++ 0b111111#6 ++ 0b00111#5 ++ 0b00110#5 ++ 0b100#3 ++ 0b1100#4 ++ 0b1#1 ++ 0b1100011#7) (.blt 6 7 0x1FF8#13) := by decide
theorem test_word_bge :
    Stands (0b1#1 ++ 0b111111#6 ++ 0b00111#5 ++ 0b00110#5 ++ 0b101#3 ++ 0b1100#4 ++ 0b1#1 ++ 0b1100011#7) (.bge 6 7 0x1FF8#13) := by decide
theorem test_word_auipc :
    Stands (0b00010010001101000101#20 ++ 0b00101#5 ++ 0b0010111#7) (.auipc 5 0x12345#20) := by decide
theorem test_word_lui :
    Stands (0b00010010001101000101#20 ++ 0b00101#5 ++ 0b0110111#7) (.lui 5 0x12345#20) := by decide
theorem test_word_jal :
    Stands (0b1#1 ++ 0b1111111100#10 ++ 0b1#1 ++ 0b11111111#8 ++ 0b00101#5 ++ 0b1101111#7) (.jal 5 0x1FFFF8#21) := by decide
theorem test_word_jalr :
    Stands (0b111111111101#12 ++ 0b00110#5 ++ 0b000#3 ++ 0b00101#5 ++ 0b1100111#7) (.jalr 5 6 0xFFD#12) := by decide

/-- The extremes of the SB and UJ offsets (V-D11 to V-D13, V-D19 to V-D22). -/
theorem test_branch_offset_extremes :
    Stands 0x7E730FE3#32 (.beq 6 7 4094#13) ∧ Stands 0x80730063#32 (.beq 6 7 0x1000#13) ∧
      Stands 0x007300E3#32 (.beq 6 7 2048#13) := by decide
theorem test_jump_offset_extremes :
    Stands 0x7FFFF0EF#32 (.jal 1 1048574#21) ∧ Stands 0x800000EF#32 (.jal 1 0x100000#21) ∧
      Stands 0x001000EF#32 (.jal 1 2048#21) ∧ Stands 0x000010EF#32 (.jal 1 4096#21) := by decide

/-- The halt word and one illegal word of each class of R108 (V-X1, V-X19, V-X9, V-X21, V-X23, V-X24, V-X27, V-X4,
V-X29). -/
theorem test_halt_word : decode 0#32 = .error .haltWord := by decide
theorem test_illegal_words :
    [0x40001033#32, 0x00001013#32, 0x00005003#32, 0x00004023#32, 0x00002063#32, 0x00001067#32, 0x00000073#32,
      0x00000080#32].all (fun w => decide (decode w = .error (.unidentifiable w))) = true := by decide

/-- Decoding from bytes: the first byte is the least significant, and the rest is left over. -/
theorem test_decode_bytes :
    decodeBytes [0x93#8, 0x00#8, 0x50#8, 0x00#8, 0xAA#8] = .ok (.addi 1 0 5#12, [0xAA#8]) := by decide
theorem test_too_few_bytes : decodeBytes [0x93#8, 0x00#8, 0x50#8] = .error .tooFewBytes := by decide

/-! ### Single steps -/

/-- Registers 0 but those listed, `pc` = 0x100, memory with the bytes listed. -/
def start (rg : List (Reg × Word)) (bytes : List (Word × Byte) := []) : State :=
  bytes.foldl (fun s b => s.writeByte b.1 b.2)
    (rg.foldl (fun s r => s.writeReg r.1 r.2)
      { State.reset with x := Vector.replicate 32 0#32, pc := 0x100#32 })

/-- A register, and the `pc`, after an instruction that answers a next state. -/
def regAfter (i : Instr) (s : State) (r : Reg) : Option (Word × Word) :=
  match exec i s with
  | .next t => some (t.readReg r, t.pc)
  | .fault _ => none
  | .refused _ => none

/-- The stop reason after an instruction, with the register that must not change. -/
def stopAfter (i : Instr) (s : State) (r : Reg) : Option (Option StopReason × Word × Word) :=
  match exec i s with
  | .next t => some (t.stopReason, t.readReg r, t.pc)
  | .fault _ => none
  | .refused _ => none

/-- The bytes and marks at some addresses after an instruction. -/
def bytesAfter (i : Instr) (s : State) (as : List Word) : Option (List (Byte × Bool)) :=
  match exec i s with
  | .next t => some (as.map fun a => (t.readByte a, t.isWritten a))
  | .fault _ => none
  | .refused _ => none

/-- The memory image of section 2.7. -/
def image : List (Word × Byte) :=
  [(0x10000000#32, 0x80#8), (0x10000001#32, 0x7F#8), (0x10000002#32, 0xFF#8), (0x10000003#32, 0x01#8)]

/-- V-R1. -/
theorem test_add_wraps :
    regAfter (.add 5 6 7) (start [(6, 0x7FFFFFFF#32), (7, 0x00000001#32)]) 5 = some (0x80000000#32, 0x00000104#32) := by decide
/-- V-R32. -/
theorem test_add_to_x0_is_dropped :
    regAfter (.add 0 6 7) (start [(6, 1#32), (7, 2#32)]) 0 = some (0x00000000#32, 0x00000104#32) := by decide
/-- V-R4. -/
theorem test_sub_wraps :
    regAfter (.sub 5 6 7) (start [(6, 0x00000000#32), (7, 0x00000001#32)]) 5 = some (0xFFFFFFFF#32, 0x00000104#32) := by decide
/-- V-R34. -/
theorem test_sub_source_is_destination :
    regAfter (.sub 5 0 5) (start [(5, 1#32)]) 5 = some (0xFFFFFFFF#32, 0x00000104#32) := by decide
/-- V-R7. -/
theorem test_sll_by_one :
    regAfter (.sll 5 6 7) (start [(6, 0x80000001#32), (7, 0x00000001#32)]) 5 = some (0x00000002#32, 0x00000104#32) := by decide
/-- V-R10. -/
theorem test_sll_by_32 :
    regAfter (.sll 5 6 7) (start [(6, 0xFFFFFFFF#32), (7, 0x00000020#32)]) 5 = some (0x00000000#32, 0x00000104#32) := by decide
/-- V-R16. -/
theorem test_slt_is_signed :
    regAfter (.slt 5 6 7) (start [(6, 0x80000000#32), (7, 0x7FFFFFFF#32)]) 5 = some (0x00000001#32, 0x00000104#32) := by decide
/-- V-R15. -/
theorem test_slt_swapped :
    regAfter (.slt 5 6 7) (start [(6, 0x00000001#32), (7, 0xFFFFFFFF#32)]) 5 = some (0x00000000#32, 0x00000104#32) := by decide
/-- V-R18. -/
theorem test_xor :
    regAfter (.xor 5 6 7) (start [(6, 0xFF00FF00#32), (7, 0x0F0F0F0F#32)]) 5 = some (0xF00FF00F#32, 0x00000104#32) := by decide
/-- V-R19. -/
theorem test_srl_fills_with_zeros :
    regAfter (.srl 5 6 7) (start [(6, 0x80000000#32), (7, 0x00000004#32)]) 5 = some (0x08000000#32, 0x00000104#32) := by decide
/-- V-R21. -/
theorem test_srl_by_32 :
    regAfter (.srl 5 6 7) (start [(6, 0x80000000#32), (7, 0x00000020#32)]) 5 = some (0x00000000#32, 0x00000104#32) := by decide
/-- V-R24. -/
theorem test_sra_fills_with_the_sign :
    regAfter (.sra 5 6 7) (start [(6, 0x80000000#32), (7, 0x00000004#32)]) 5 = some (0xF8000000#32, 0x00000104#32) := by decide
/-- V-R27. -/
theorem test_sra_by_33 :
    regAfter (.sra 5 6 7) (start [(6, 0x7FFFFFFF#32), (7, 0x00000021#32)]) 5 = some (0x00000000#32, 0x00000104#32) := by decide
/-- V-R30. -/
theorem test_or :
    regAfter (.or 5 6 7) (start [(6, 0xFF00FF00#32), (7, 0x0F0F0F0F#32)]) 5 = some (0xFF0FFF0F#32, 0x00000104#32) := by decide
/-- V-R31. -/
theorem test_and :
    regAfter (.and 5 6 7) (start [(6, 0xFF00FF00#32), (7, 0x0F0F0F0F#32)]) 5 = some (0x0F000F00#32, 0x00000104#32) := by decide
/-- V-M6. -/
theorem test_mul_negative :
    regAfter (.mul 5 6 7) (start [(6, 0xFFFFFFFE#32), (7, 0x00000003#32)]) 5 = some (0xFFFFFFFA#32, 0x00000104#32) := by decide
/-- V-M3. -/
theorem test_mul_low_word :
    regAfter (.mul 5 6 7) (start [(6, 0x00010000#32), (7, 0x00010000#32)]) 5 = some (0x00000000#32, 0x00000104#32) := by decide
/-- V-M8. -/
theorem test_div_rounds_toward_zero :
    regAfter (.div 5 6 7) (start [(6, 0xFFFFFFF9#32), (7, 0x00000002#32)]) 5 = some (0xFFFFFFFD#32, 0x00000104#32) := by decide
/-- V-M11. -/
theorem test_div_overflow_wraps :
    regAfter (.div 5 6 7) (start [(6, 0x80000000#32), (7, 0xFFFFFFFF#32)]) 5 = some (0x80000000#32, 0x00000104#32) := by decide
/-- V-M17. -/
theorem test_rem_has_the_sign_of_the_dividend :
    regAfter (.rem 5 6 7) (start [(6, 0xFFFFFFF9#32), (7, 0x00000002#32)]) 5 = some (0xFFFFFFFF#32, 0x00000104#32) := by decide
/-- V-M18. -/
theorem test_rem_positive_by_negative :
    regAfter (.rem 5 6 7) (start [(6, 0x00000007#32), (7, 0xFFFFFFFE#32)]) 5 = some (0x00000001#32, 0x00000104#32) := by decide
/-- V-R12: bit 31 of the amount set; nothing changes but the flag and the reason. -/
theorem test_negative_shift_stops :
    stopAfter (.sll 5 6 7) (start [(5, 9#32), (6, 1#32), (7, 0x80000000#32)]) 5 =
      some (some (.executeError .negativeShift), 9#32, 0x100#32) := by decide
/-- V-M23: although `rd` is x0. -/
theorem test_division_by_zero_stops :
    stopAfter (.div 0 1 0) (start [(1, 9#32)]) 1 = some (some (.executeError .divideByZero), 9#32, 0x100#32) := by
  decide
/-- V-I5. -/
theorem test_addi_negative :
    regAfter (.addi 5 6 0xFFF#12) (start [(6, 0x80000000#32)]) 5 = some (0x7FFFFFFF#32, 0x00000104#32) := by decide
/-- V-I16. -/
theorem test_addi_source_is_destination :
    regAfter (.addi 5 5 1#12) (start [(5, 0xFFFFFFFF#32)]) 5 = some (0x00000000#32, 0x00000104#32) := by decide
/-- V-I9. -/
theorem test_andi_sign_extends :
    regAfter (.andi 5 6 0xF00#12) (start [(6, 0x12345678#32)]) 5 = some (0x12345600#32, 0x00000104#32) := by decide
/-- V-I13. -/
theorem test_ori_sign_extends :
    regAfter (.ori 5 6 0x800#12) (start [(6, 0x12345678#32)]) 5 = some (0xFFFFFE78#32, 0x00000104#32) := by decide
/-- V-L1. -/
theorem test_lb_sign_extends :
    regAfter (.lb 5 6 0#12) (start [(6, 0x10000000#32)] image) 5 = some (0xFFFFFF80#32, 0x00000104#32) := by decide
/-- V-L16. -/
theorem test_lb_negative_offset_unwritten :
    regAfter (.lb 5 6 0xFFD#12) (start [(6, 0x10000000#32)] image) 5 = some (0x00000000#32, 0x00000104#32) := by decide
/-- V-L3. -/
theorem test_lbu_zero_extends :
    regAfter (.lbu 5 6 0#12) (start [(6, 0x10000000#32)] image) 5 = some (0x00000080#32, 0x00000104#32) := by decide
/-- V-L7. -/
theorem test_lh_misaligned :
    regAfter (.lh 5 6 1#12) (start [(6, 0x10000000#32)] image) 5 = some (0xFFFFFF7F#32, 0x00000104#32) := by decide
/-- V-L8. -/
theorem test_lw_little_endian :
    regAfter (.lw 5 6 0#12) (start [(6, 0x10000000#32)] image) 5 = some (0x01FF7F80#32, 0x00000104#32) := by decide
/-- V-L17. -/
theorem test_lw_wraps :
    regAfter (.lw 5 6 0xFFC#12) (start [(6, 2#32)] [(0xFFFFFFFE#32, 0xAA#8), (0xFFFFFFFF#32, 0xBB#8), (0#32, 0xCC#8), (1#32, 0xDD#8)]) 5 = some (0xDDCCBBAA#32, 0x00000104#32) := by decide
/-- V-L12. -/
theorem test_ld_keeps_the_low_word :
    regAfter (.ld 5 6 0#12) (start [(6, 0x10000000#32)] image) 5 = some (0x01FF7F80#32, 0x00000104#32) := by decide
/-- V-S1. -/
theorem test_sb_writes_one_byte :
    bytesAfter (.sb 6 7 0#12) (start [(6, 0x10000010#32), (7, 0x12345680#32)])
        [0x10000010#32, 0x10000011#32] =
      some [(0x80#8, true), (0x00#8, false)] := by decide
/-- V-S2. -/
theorem test_sh_writes_two_bytes :
    bytesAfter (.sh 6 7 0#12) (start [(6, 0x10000010#32), (7, 0x12348680#32)])
        [0x10000010#32, 0x10000011#32, 0x10000012#32] =
      some [(0x80#8, true), (0x86#8, true), (0x00#8, false)] := by decide
/-- V-S9. -/
theorem test_sw_wraps :
    bytesAfter (.sw 6 7 0#12) (start [(6, 0xFFFFFFFE#32), (7, 0x44332211#32)])
        [0xFFFFFFFE#32, 0xFFFFFFFF#32, 0x00000000#32, 0x00000001#32] =
      some [(0x11#8, true), (0x22#8, true), (0x33#8, true), (0x44#8, true)] := by decide
/-- V-S4. -/
theorem test_sd_pads_with_zeros :
    bytesAfter (.sd 6 7 0#12) (start [(6, 0x10000010#32), (7, 0x89ABCDEF#32)])
        [0x10000013#32, 0x10000014#32, 0x10000017#32, 0x10000018#32] =
      some [(0x89#8, true), (0x00#8, true), (0x00#8, true), (0x00#8, false)] := by decide
/-- V-B1. -/
theorem test_beq_taken :
    regAfter (.beq 6 7 0x1FF8#13) (start [(6, 0x00000005#32), (7, 0x00000005#32)]) 6 = some (0x00000005#32, 0x000000F8#32) := by decide
/-- V-B2. -/
theorem test_beq_not_taken :
    regAfter (.beq 6 7 0x1FF8#13) (start [(6, 0x00000005#32), (7, 0x00000006#32)]) 6 = some (0x00000005#32, 0x00000104#32) := by decide
/-- V-B3. -/
theorem test_bne_taken :
    regAfter (.bne 6 7 0x1FF8#13) (start [(6, 0x00000005#32), (7, 0x00000006#32)]) 6 = some (0x00000005#32, 0x000000F8#32) := by decide
/-- V-B4. -/
theorem test_bne_not_taken :
    regAfter (.bne 6 7 0x1FF8#13) (start [(6, 0x00000005#32), (7, 0x00000005#32)]) 6 = some (0x00000005#32, 0x00000104#32) := by decide
/-- V-B8. -/
theorem test_blt_is_signed :
    regAfter (.blt 6 7 0x1FF8#13) (start [(6, 0x80000000#32), (7, 0x7FFFFFFF#32)]) 6 = some (0x80000000#32, 0x000000F8#32) := by decide
/-- V-B7. -/
theorem test_blt_equal :
    regAfter (.blt 6 7 0x1FF8#13) (start [(6, 0x00000005#32), (7, 0x00000005#32)]) 6 = some (0x00000005#32, 0x00000104#32) := by decide
/-- V-B11. -/
theorem test_bge_equal :
    regAfter (.bge 6 7 0x1FF8#13) (start [(6, 0x00000005#32), (7, 0x00000005#32)]) 6 = some (0x00000005#32, 0x000000F8#32) := by decide
/-- V-B10. -/
theorem test_bge_less :
    regAfter (.bge 6 7 0x1FF8#13) (start [(6, 0xFFFFFFFF#32), (7, 0x00000000#32)]) 6 = some (0xFFFFFFFF#32, 0x00000104#32) := by decide
/-- V-U6. -/
theorem test_auipc_adds_pc_plus_4 :
    regAfter (.auipc 5 0x12345#20) (start []) 5 = some (0x12345104#32, 0x00000104#32) := by decide
/-- V-U4. -/
theorem test_lui :
    regAfter (.lui 5 0x80000#20) (start []) 5 = some (0x80000000#32, 0x00000104#32) := by decide
/-- V-J1. -/
theorem test_jal_backwards :
    regAfter (.jal 5 0x1FFFF8#21) (start []) 5 = some (0x00000104#32, 0x000000F8#32) := by decide
/-- V-J11. -/
theorem test_jalr_base_is_destination :
    regAfter (.jalr 1 1 0#12) (start [(1, 0x2000#32)]) 1 = some (0x00000104#32, 0x00002000#32) := by decide
/-- V-J13. -/
theorem test_jalr_keeps_bit_0 :
    regAfter (.jalr 5 6 0#12) (start [(6, 0x2001#32)]) 5 = some (0x00000104#32, 0x00002001#32) := by decide

/-! ### The step, the dumps, the image load -/

/-- The reason of the stop a step makes. -/
def stepStop (s : State) : Option (Option StopReason × Word × Nat) :=
  match step s with
  | .next t => some (t.stopReason, t.pc, t.cycles)
  | .fault _ => none
  | .refused _ => none

/-- V-X4: the `ecall` word. -/
theorem test_step_decode_error :
    stepStop ((start []).withFetchWord 32 0x73) = some (some (.decodeError 0x73#32), 0x100#32, 0) := by decide
/-- P1's first instruction from reset. -/
theorem test_step_runs_and_counts :
    stepStop (State.reset.withFetchWord 32 0x00500093) = some (none, 4#32, 1) := by decide
/-- P3's data dump line for a group with two written bytes. -/
theorem test_data_dump_of_one_group :
    wordTouched (start [] [(0x10000001#32, 0#8)]) 0x10000000#32 = true ∧
      dataLine (0x10000000#32, 0xFF800080#32) = "0x10000000 0xff800080" := by decide
/-- R275's example value. -/
theorem test_register_line : registerLine 3 12#32 = "x3 0x0000000c" := by decide
/-- R306's example line: bytes 93 00 50 00 at 0 to 3. -/
theorem test_image_bytes :
    let s := State.boot [(0#32, 0x00500093#32)]
    [s.readByte 0#32, s.readByte 1#32, s.readByte 2#32, s.readByte 3#32] = [0x93#8, 0#8, 0x50#8, 0#8] := by decide

/-! ### Witnesses: a state and operands that meet the hypotheses of each statement, clause by clause -/

theorem witness_DecodeOfEncode : WellFormed (.jal 1 0x100000#21) = true ∧ WellFormed (.beq 6 7 4094#13) = true := by decide
theorem witness_EncodeOfDecode : decode 0x80000063#32 = .ok (.beq 0 0 0x1000#13) := by decide

/-- A word of each format, at the ends of its immediate. -/
theorem witness_ImmediatesAreReassembled :
    decode 0x007302B3#32 = .ok (.add 5 6 7) ∧ decode 0x80030293#32 = .ok (.addi 5 6 0x800#12) ∧
    decode 0x7E732FA3#32 = .ok (.sw 6 7 2047#12) ∧ decode 0x80730063#32 = .ok (.beq 6 7 0x1000#13) ∧
    decode 0xFFFFF2B7#32 = .ok (.lui 5 0xFFFFF#20) ∧ decode 0x800000EF#32 = .ok (.jal 1 0x100000#21) := by decide

/-- A running state at the word of an instruction. -/
def atWord (w : Nat) (rg : List (Reg × Word) := []) : State := (start rg).withFetchWord 32 w

theorem witness_StepRunsTheDecodedInstruction :
    let s := atWord 0x007302B3
    s.terminated = false ∧
      decode (s.readByte (s.pc + 3#32) ++ s.readByte (s.pc + 2#32) ++ s.readByte (s.pc + 1#32) ++ s.readByte s.pc) =
        .ok (.add 5 6 7) := by decide

theorem witness_HaltAndDecodeError :
    ((start []).terminated = false ∧ wordAtPc (start []) = 0#32) ∧
    ((atWord 0x73).terminated = false ∧ wordAtPc (atWord 0x73) ≠ 0#32 ∧
      ∀ r ∈ decodeTable, ¬ r.Matches (wordAtPc (atWord 0x73))) := by decide

theorem witness_DivisionByZeroStops : (start []).readReg 7 = 0#32 := by decide
theorem witness_NegativeShiftStops :
    ((start [(7, 0x80000000#32)]).readReg 7).toInt < 0 ∧ ((start [(7, 0xFFFFFFFF#32)]).readReg 7).toInt < 0 := by decide

/-- One running state for each stop condition, and one that completes. -/
theorem witness_EveryStepStopsPreciselyOrCompletes :
    [start [], atWord 0x73, atWord 0x027342B3, atWord 0x007312B3 [(7, 0x80000000#32)], atWord 0x007302B3].map
        (fun s => (s.terminated, stopCondition s)) =
      [(false, some .halt), (false, some (.decodeError 0x73#32)), (false, some (.executeError .divideByZero)),
        (false, some (.executeError .negativeShift)), (false, none)] := by decide

theorem witness_TerminatedCoreTakesNoStep : (State.reset.raise .halt).terminated = true := by decide

theorem witness_EveryStepKeepsTheForm : (atWord 0x00732023).wf ∧ ∃ t, step (atWord 0x00732023) = .next t :=
  ⟨by decide, _, rfl⟩

theorem witness_OnlyTheDestination :
    ∃ t, exec (.add 5 6 7) (start []) = .next t ∧ Instr.dest (.add 5 6 7) ≠ some 6 := ⟨_, rfl, by decide⟩
theorem witness_OnlyTheDestination_zero : ∃ t, exec (.add 0 6 7) (start []) = .next t := ⟨_, rfl⟩

/-- An unread register that is written, and one that is not. -/
theorem witness_UnreadRegisters :
    (5 ∉ Instr.sources (.add 5 6 7) ∧ 8 ∉ Instr.sources (.add 5 6 7)) ∧ ∃ t, exec (.add 5 6 7) (start []) = .next t :=
  ⟨by decide, _, rfl⟩

theorem witness_StorageBehindRegisterZero : ∃ t, step (atWord 0x00730033) = .next t := ⟨_, rfl⟩
theorem witness_CycleCounter : ∃ t, step (atWord 0x007302B3) = .next t ∧ t.terminated = false := ⟨_, rfl, rfl⟩
theorem witness_CycleCounter_stop : ∃ t, step (start []) = .next t ∧ t.terminated = true := ⟨_, rfl, rfl⟩
theorem witness_WrittenMarks : ∃ t, step (atWord 0x00730023) = .next t := ⟨_, rfl⟩

theorem witness_OnlyStoresChangeMemory :
    (∃ t, exec (.lw 5 6 0#12) (start []) = .next t) ∧ Instr.format (.lw 5 6 0#12) ≠ .S ∧
      (start [] image).isWritten 0x10000003#32 = true := ⟨⟨_, rfl⟩, by decide, by decide⟩

theorem witness_ProgramCounterAdvance :
    (∃ t, exec (.sll 5 6 7) (start []) = .next t) ∧ raises (.sll 5 6 7) (start []) = none := ⟨⟨_, rfl⟩, by decide⟩

/-- The shift results at the ends of the amounts that do not stop. -/
theorem witness_ShiftResults :
    0 ≤ ((start []).readReg 7).toInt ∧ 0 ≤ ((start [(7, 0x7FFFFFFF#32)]).readReg 7).toInt := by decide

theorem witness_DivRemResults : (start [(7, 0xFFFFFFFF#32)]).readReg 7 ≠ 0#32 := by decide

theorem witness_RoundingIgnored : ((-2 : Int) ≠ 0 ∧ (-2 : Int) ∣ 6) ∧ ((-2 : Int) ≠ 0 ∧ 0 ≤ (-7 : Int) * -2) := by decide

theorem witness_StoreThenLoad :
    (∃ t, exec (.sw 6 7 0#12) (start []) = .next t) ∧ ∃ t, exec (.sd 6 7 0#12) (start []) = .next t :=
  ⟨⟨_, rfl⟩, _, rfl⟩

theorem witness_StoreIsSeenByTheNextFetch :
    effectiveAddress (start [(6, 0x104#32)]) 6 0#12 = (start [(6, 0x104#32)]).pc + 4#32 ∧
      ∃ t, exec (.sw 6 7 0#12) (start [(6, 0x104#32)]) = .next t := ⟨by decide, _, rfl⟩

theorem witness_ByteReadsAndWrites : State.reset.wf ∧ State.reset.isWritten 0xFFFFFFFF#32 = false := by decide
theorem witness_WideAccesses : ∀ n ∈ [1, 2, 4, 8], ∃ i, i < n ∧ (0xFFFFFFFF#32 : Word) ≠ 0x100#32 + BitVec.ofNat 32 i :=
  fun n hn => ⟨0, by revert n; decide, by decide⟩

theorem witness_CyclesCountTheIterations : (runLoop 1 (atWord 0x0000006F)).terminated = false := by decide
theorem witness_RunsComposeAndStopsLast : (runLoop 1 (start [])).terminated = true := by decide
theorem witness_PlacedWord : decodeTableWord 32 0x007302B3 = some (.add 5 6 7) := by decide

end Sys2Proof.Tests
end

section
/-! PROOFS. What one instruction leaves of the register file (10_state.md section 2). -/

namespace Sys2Proof.Machine

/-- The formats with a write-back are R, I, U and UJ (R22). -/
theorem dest_isSome_iff_format (i : Instr) :
    i.dest.isSome = true ↔ i.format = .R ∨ i.format = .I ∨ i.format = .U ∨ i.format = .UJ := by
  cases i <;> simp [Instr.dest, Instr.format, Instr.op, Op.format]

/-- The frame of the register file: of the four outcomes only `write` touches it, at the destination and not at 0. -/
theorem exec_get_of_not_dest {i : Instr} {s t : State} (h : exec i s = .next t) {r : Reg}
    (hr : i.dest ≠ some r ∨ r = 0) : t.x.get r = s.x.get r := by
  cases exec_outcome i s with
  | stop e _ hx =>
    cases h.symm.trans hx
    rw [State.raise_x]
  | write rd v p _ hd hx =>
    cases h.symm.trans hx
    have hnot : ¬(r = rd ∧ rd ≠ 0) := by
      rintro ⟨rfl, h0⟩
      exact hr.elim (· hd) h0
    rw [State.retire_x, State.writeReg_get, if_neg hnot]
  | store ea n v _ _ _ _ hx =>
    cases h.symm.trans hx
    rw [State.retire_x, State.memWrite_x]
  | branch c p _ _ _ hx =>
    cases h.symm.trans hx
    rw [State.retire_x]

/-- Settles O17: the frame of the register file over the outcomes of `exec`, and the formats that have a destination. -/
theorem onlyTheDestinationRegisterIsWritten : Obligations.OnlyTheDestinationRegisterIsWritten := by
  intro i s t h
  exact ⟨fun _ hr => exec_get_of_not_dest h hr, State.readReg_zero t, dest_isSome_iff_format i⟩

end Sys2Proof.Machine
end

section
/-! PROOFS. The byte interface of the memory (20_memory.md, R50 and R51). -/

namespace Sys2Proof.Machine

theorem Memory.read_of_not_listed {m : Memory} {a : Nat} (h : ∀ c ∈ m, c.1 ≠ a) :
    Memory.read m a = Memory.unlisted := by
  induction m with
  | nil => rfl
  | cons c m ih =>
    obtain ⟨hc, hm⟩ := List.forall_mem_cons.1 h
    exact (if_neg hc).trans (ih hm)

/-- R50 in the form every step keeps: a listed byte is a written one, so an unwritten address is not listed. -/
theorem State.readByte_of_not_isWritten {s : State} (hs : s.wf) {a : Word} (ha : s.isWritten a = false) :
    s.readByte a = 0#8 := by
  obtain ⟨-, -, hlisted, -⟩ := hs
  have hunwritten : a.toNat ∉ s.written := of_decide_eq_false ha
  exact Memory.read_of_not_listed fun c hc hca => hunwritten (hca ▸ hlisted c hc)

/-- Settles O43: R50 from the form of a state, R51 from the two rules of a byte write. -/
theorem byteReadsAndWrites : Obligations.ByteReadsAndWrites := by
  intro s a b hs
  exact ⟨State.readByte_of_not_isWritten hs,
    fun k => ⟨State.writeByte_readByte s a b k, State.writeByte_isWritten s a b k⟩⟩

end Sys2Proof.Machine
end

section
/-! PROOFS. The instruction a word decodes to, and the immediate of each format as a number made from the fields of the
word (30_encoding.md, R91 to R95). -/

namespace Sys2Proof.Machine

/-! ### What decodes is built from an operation -/

/-- A word that decodes has the row of an operation and is that operation's instruction with the fields of the word. -/
theorem exists_op_of_decode_ok {w : Word} {i : Instr} (h : decode w = .ok i) :
    ∃ op : Op, lookup (opcodeOf w) (funct3Of w) (funct7Of w) = some op.row ∧ i = build op w := by
  unfold decode at h
  split at h
  · cases h
  · split at h
    · next r hr =>
      obtain ⟨hmem, -⟩ := lookup_some hr
      obtain ⟨op, rfl⟩ := mem_decodeTable.1 hmem
      rw [Op.row_op] at h
      exact ⟨op, hr, (Except.ok.inj h).symm⟩
    · cases h

@[simp] theorem build_format (op : Op) (w : Word) : (build op w).format = op.format := by
  cases op <;> rfl

/-- The U immediate is the word with its low 12 bits cleared (R94). -/
theorem upperImm_immUOf (w : Word) : upperImm (immUOf w) = w &&& 0xFFFFF000#32 := by
  have hw : w = w.extractLsb' 12 20 ++ w.extractLsb' 0 12 :=
    ((extract_join w 0 20 12).trans BitVec.extractLsb'_eq_self).symm
  have hmask : 0xFFFFF000#32 = BitVec.allOnes 20 ++ 0#12 := by decide
  calc upperImm (immUOf w)
      = (w.extractLsb' 12 20 &&& BitVec.allOnes 20) ++ (w.extractLsb' 0 12 &&& 0#12) := by
        rw [BitVec.and_allOnes, BitVec.and_zero]; rfl
    _ = w &&& 0xFFFFF000#32 := by rw [hmask, ← BitVec.and_append, ← hw]

/-- The immediate of the instruction built from a word is the one its format reads in the word. -/
theorem immediate_build (op : Op) (w : Word) : immediate (build op w) = formatImm op.format w := by
  cases op with
  | auipc | lui => exact upperImm_immUOf w
  | _ => rfl

/-! ### The signed value of a field, and of fields appended -/

theorem sext_toInt {n : Nat} (imm : BitVec n) (h : n ≤ 32) : (sext imm).toInt = imm.toInt :=
  BitVec.toInt_signExtend_of_le h

theorem toNat_field (w : Word) (k n : Nat) : (w.extractLsb' k n).toNat = w.toNat / 2 ^ k % 2 ^ n := by
  rw [BitVec.extractLsb'_toNat, Nat.shiftRight_eq_div_pow]

/-- The top `n + 1` bits of a word as a signed number: the field, less `2 ^ (n + 1)` when bit 31 is set. -/
theorem toInt_topField (w : Word) (k n : Nat) (h : k + (n + 1) = 32) :
    (w.extractLsb' k (n + 1)).toInt = (w.toNat / 2 ^ k : Nat) - (if w.getLsbD 31 then 2 ^ (n + 1) else 0) := by
  have hmsb : (w.extractLsb' k (n + 1)).msb = w.getLsbD 31 := by
    simp [h, BitVec.getMsbD]
  have hnat : (w.extractLsb' k (n + 1)).toNat = w.toNat / 2 ^ k := by
    rw [toNat_field, Nat.mod_eq_of_lt]
    rw [Nat.div_lt_iff_lt_mul (Nat.two_pow_pos k), ← Nat.pow_add, Nat.add_comm, h]
    exact w.isLt
  rw [BitVec.toInt_eq_msb_cond, hmsb, hnat]
  split <;> simp

/-- Bit 31 alone, as a signed number. -/
theorem toInt_signBit (w : Word) : (w.extractLsb' 31 1).toInt = -(if w.getLsbD 31 then 1 else 0) := by
  have hbit : w.extractLsb' 31 1 = BitVec.ofBool (w.getLsbD 31) := by
    ext i hi
    obtain rfl : i = 0 := by omega
    simp
  rw [hbit]
  cases w.getLsbD 31 <;> rfl

/-- Appending a field below a signed number of positive width shifts the number left by the field's width. -/
theorem toInt_append_field {m : Nat} (x : BitVec (m + 1)) (w : Word) (k n : Nat) :
    (x ++ w.extractLsb' k n).toInt = 2 ^ n * x.toInt + (w.toNat / 2 ^ k % 2 ^ n : Nat) := by
  rw [BitVec.toInt_append, if_neg (by simp), toNat_field]

/-! ### The immediates -/

theorem immIOf_toInt (w : Word) :
    (immIOf w).toInt = (w.toNat / 2 ^ 20 : Nat) - (if w.getLsbD 31 then 4096 else 0) :=
  toInt_topField w 20 11 rfl

theorem immSOf_toInt (w : Word) :
    (immSOf w).toInt = (32 * (w.toNat / 2 ^ 25) + w.toNat / 2 ^ 7 % 32 : Nat) -
      (if w.getLsbD 31 then 4096 else 0) := by
  rw [immSOf, toInt_append_field, toInt_topField w 25 6 rfl]
  split <;> omega

theorem immSBOf_toInt (w : Word) :
    (immSBOf w).toInt = (2048 * (w.toNat / 2 ^ 7 % 2) + 32 * (w.toNat / 2 ^ 25 % 64) +
      2 * (w.toNat / 2 ^ 8 % 16) : Nat) - (if w.getLsbD 31 then 4096 else 0) := by
  rw [immSBOf, BitVec.toInt_append_zero, toInt_append_field, toInt_append_field, toInt_append_field, toInt_signBit]
  split <;> omega

theorem immUJOf_toInt (w : Word) :
    (immUJOf w).toInt = (4096 * (w.toNat / 2 ^ 12 % 256) + 2048 * (w.toNat / 2 ^ 20 % 2) +
      2 * (w.toNat / 2 ^ 21 % 1024) : Nat) - (if w.getLsbD 31 then 1048576 else 0) := by
  rw [immUJOf, BitVec.toInt_append_zero, toInt_append_field, toInt_append_field, toInt_append_field, toInt_signBit]
  split <;> omega

/-- Settles O7: the instruction is built from the word, so its immediate is the one its format reads there. -/
theorem immediatesAreReassembled : Obligations.ImmediatesAreReassembled := by
  intro w i h
  obtain ⟨op, -, rfl⟩ := exists_op_of_decode_ok h
  rw [build_format, immediate_build]
  cases op.format with
  | R => trivial
  | I => exact (sext_toInt _ (by decide)).trans (immIOf_toInt w)
  | S => exact (sext_toInt _ (by decide)).trans (immSOf_toInt w)
  | SB => exact (sext_toInt _ (by decide)).trans (immSBOf_toInt w)
  | U => rfl
  | UJ => exact (sext_toInt _ (by decide)).trans (immUJOf_toInt w)

end Sys2Proof.Machine
end

section
/-! PROOFS. The step from a word that is no instruction (40_pipeline.md, R121, R123 and R127). -/

namespace Sys2Proof

/-! ### A looked-up row matches in the mask form of R100 -/

/-- Masking a word to the bits of one field leaves the field at its place. -/
theorem and_fieldMask (w : Word) (k n : Nat) :
    w &&& (BitVec.allOnes n).setWidth 32 <<< k = (w.extractLsb' k n).setWidth 32 <<< k := by
  ext i hi
  by_cases hk : i < k
  · simp [hk]
  · have hkn : k + (i - k) = i := by omega
    simp [hk, hkn, hi, Bool.and_comm]

theorem and_funct7Mask (w : Word) : w &&& 0xFE000000#32 = (funct7Of w).setWidth 32 <<< 25 :=
  and_fieldMask w 25 7

theorem and_funct3Mask (w : Word) : w &&& 0x00007000#32 = (funct3Of w).setWidth 32 <<< 12 :=
  and_fieldMask w 12 3

theorem and_opcodeMask (w : Word) : w &&& 0x0000007F#32 = (opcodeOf w).setWidth 32 := by
  have h := and_fieldMask w 0 7
  rwa [BitVec.shiftLeft_zero, BitVec.shiftLeft_zero] at h

/-- A word whose fields carry the codes of a row matches the row: the mask is the fields' masks joined. -/
theorem Row.matches_of_fields {r : Row} {w : Word} (ho : r.opcode = opcodeOf w)
    (h3 : ∀ x, r.funct3 = some x → x = funct3Of w) (h7 : ∀ x, r.funct7 = some x → x = funct7Of w) :
    r.Matches w := by
  unfold Row.Matches Row.mask Row.pattern
  rw [BitVec.and_or_distrib_left, BitVec.and_or_distrib_left, and_opcodeMask, ho]
  refine congrArg (· ||| _) (congrArg₂ (· ||| ·) ?_ ?_)
  · cases hr : r.funct7 with
    | none => exact BitVec.and_zero
    | some x => exact h7 x hr ▸ and_funct7Mask w
  · cases hr : r.funct3 with
    | none => exact BitVec.and_zero
    | some x => exact h3 x hr ▸ and_funct3Mask w

theorem mem_and_matches_of_lookup {w : Word} {r : Row}
    (h : lookup (opcodeOf w) (funct3Of w) (funct7Of w) = some r) : r ∈ decodeTable ∧ r.Matches w := by
  obtain ⟨hmem, ho, h3, h7⟩ := lookup_some h
  exact ⟨hmem, Row.matches_of_fields ho h3 h7⟩

/-! ### The two words that are no instruction -/

theorem decode_haltWord : decode 0#32 = .error .haltWord := if_pos rfl

/-- A non-zero word outside the table decodes to no instruction (R108, R123). -/
theorem decode_of_no_match {w : Word} (h0 : w ≠ 0#32) (h : ∀ r ∈ decodeTable, ¬ r.Matches w) :
    decode w = .error (.unidentifiable w) := by
  have hnone : lookup (opcodeOf w) (funct3Of w) (funct7Of w) = none :=
    Option.eq_none_iff_forall_ne_some.2 fun r hr =>
      have ⟨hmem, hmatch⟩ := mem_and_matches_of_lookup hr
      h r hmem hmatch
  have hw : w ≠ Config.haltWord := h0
  rw [decode, if_neg hw, hnone]

end Sys2Proof

namespace Sys2Proof.Machine

/-- The word stage F reads at `pc` is the four bytes from `pc` on (R121). -/
theorem State.fetch_eq_wordAtPc (s : State) : s.fetch = wordAtPc s := s.memRead_four s.pc

/-- Settles O9: either word is rejected by the decoder, and the step on a rejected word is `raise`. -/
theorem haltAndDecodeErrorOnlySetTheFlag : Obligations.HaltAndDecodeErrorOnlySetTheFlag := by
  intro s hrun
  refine ⟨fun hzero => ?_, fun hzero hmatch => ?_⟩
  · have hdec : decode s.fetch = .error .haltWord := by
      rw [s.fetch_eq_wordAtPc, hzero]; exact decode_haltWord
    exact step_of_reject hrun hdec
  · have hdec : decode s.fetch = .error (.unidentifiable (wordAtPc s)) := by
      rw [s.fetch_eq_wordAtPc]; exact decode_of_no_match hzero hmatch
    exact step_of_reject hrun hdec

end Sys2Proof.Machine
end

section
/-! PROOFS. The execute errors (60_exceptions.md, R264). -/

namespace Sys2Proof.Machine

/-- An instruction that raises an execute error stops with it: the other three outcomes raise none. -/
theorem stopsWith_of_raises {i : Instr} {s : State} {e : ExecuteError} (h : raises i s = some e) :
    StopsWith i s (.executeError e) := by
  cases exec_outcome i s with
  | stop e' h' hx =>
    obtain rfl : e = e' := Option.some.inj (h.symm.trans h')
    exact stops_of_stopWith hx
  | write _ _ _ h' _ _ | store _ _ _ h' _ _ _ _ | branch _ _ h' _ _ _ =>
    cases h.symm.trans h'

/-- Settles O11: each shift raises `negativeShift` on a negative amount, and what raises an error stops with it. -/
theorem negativeShiftStops : Obligations.NegativeShiftStops := by
  intro s rd rs1 rs2 hneg
  have hsll : raises (.sll rd rs1 rs2) s = some .negativeShift := if_pos hneg
  have hsrl : raises (.srl rd rs1 rs2) s = some .negativeShift := if_pos hneg
  have hsra : raises (.sra rd rs1 rs2) s = some .negativeShift := if_pos hneg
  exact ⟨stopsWith_of_raises hsll, stopsWith_of_raises hsrl, stopsWith_of_raises hsra⟩

end Sys2Proof.Machine
end

section
/-! PROOFS. Encoding and decoding are inverse to each other (30_encoding.md sections 1 to 3). -/

namespace Sys2Proof

/-! ### Fields of an appended word, and appended fields of a word -/

/-- `extract_join` for a simp set: two parts of a word join where one starts at the end of the other. -/
theorem extract_adjacent {k : Nat} (w : BitVec k) (t s m n : Nat) (h : t = s + n) :
    w.extractLsb' t m ++ w.extractLsb' s n = w.extractLsb' s (m + n) :=
  h ▸ extract_join w s m n

/-- The lowest bit of an even offset, as a part of the offset. -/
theorem extract_bit0_of_even {n : Nat} {imm : BitVec n} (h : (!imm.getLsbD 0) = true) :
    imm.extractLsb' 0 1 = 0#1 := by
  ext i hi
  obtain rfl : i = 0 := by omega
  simpa using h

section
variable (r : Row) (rd rs1 rs2 : Reg) (w : Word)

/-! ### The operand fields of an encoded word -/

@[simp] theorem rdOf_encodeR : rdOf (encodeR r rd rs1 rs2) = rd := by
  simp (disch := decide) only [rdOf, encodeR, extract_above, Nat.reduceSub, extract_low, Reg.ofBits_bits]
@[simp] theorem rs1Of_encodeR : rs1Of (encodeR r rd rs1 rs2) = rs1 := by
  simp (disch := decide) only [rs1Of, encodeR, extract_above, Nat.reduceSub, extract_low, Reg.ofBits_bits]
@[simp] theorem rs2Of_encodeR : rs2Of (encodeR r rd rs1 rs2) = rs2 := by
  simp (disch := decide) only [rs2Of, encodeR, extract_above, Nat.reduceSub, extract_low, Reg.ofBits_bits]

@[simp] theorem rdOf_encodeI (imm : BitVec 12) : rdOf (encodeI r rd rs1 imm) = rd := by
  simp (disch := decide) only [rdOf, encodeI, extract_above, Nat.reduceSub, extract_low, Reg.ofBits_bits]
@[simp] theorem rs1Of_encodeI (imm : BitVec 12) : rs1Of (encodeI r rd rs1 imm) = rs1 := by
  simp (disch := decide) only [rs1Of, encodeI, extract_above, Nat.reduceSub, extract_low, Reg.ofBits_bits]
@[simp] theorem immIOf_encodeI (imm : BitVec 12) : immIOf (encodeI r rd rs1 imm) = imm := by
  simp (disch := decide) only [immIOf, encodeI, extract_above, Nat.reduceSub, BitVec.extractLsb'_eq_self]

@[simp] theorem rs1Of_encodeS (imm : BitVec 12) : rs1Of (encodeS r rs1 rs2 imm) = rs1 := by
  simp (disch := decide) only [rs1Of, encodeS, extract_above, Nat.reduceSub, extract_low, Reg.ofBits_bits]
@[simp] theorem rs2Of_encodeS (imm : BitVec 12) : rs2Of (encodeS r rs1 rs2 imm) = rs2 := by
  simp (disch := decide) only [rs2Of, encodeS, extract_above, Nat.reduceSub, extract_low, Reg.ofBits_bits]
@[simp] theorem immSOf_encodeS (imm : BitVec 12) : immSOf (encodeS r rs1 rs2 imm) = imm := by
  simp (disch := decide) only [immSOf, encodeS, extract_above, Nat.reduceSub, extract_low,
    BitVec.extractLsb'_eq_self, extract_adjacent]

@[simp] theorem rs1Of_encodeSB (imm : BitVec 13) : rs1Of (encodeSB r rs1 rs2 imm) = rs1 := by
  simp (disch := decide) only [rs1Of, encodeSB, extract_above, Nat.reduceSub, extract_low, Reg.ofBits_bits]
@[simp] theorem rs2Of_encodeSB (imm : BitVec 13) : rs2Of (encodeSB r rs1 rs2 imm) = rs2 := by
  simp (disch := decide) only [rs2Of, encodeSB, extract_above, Nat.reduceSub, extract_low, Reg.ofBits_bits]
@[simp] theorem immSBOf_encodeSB (imm : BitVec 13) (h : branchOffsetOk imm = true) :
    immSBOf (encodeSB r rs1 rs2 imm) = imm := by
  simp (disch := decide) only [immSBOf, encodeSB, extract_above, Nat.reduceSub, extract_low,
    BitVec.extractLsb'_eq_self]
  rw [← extract_bit0_of_even h]
  simp (disch := decide) only [extract_adjacent]
  exact BitVec.extractLsb'_eq_self

@[simp] theorem rdOf_encodeU (imm : BitVec 20) : rdOf (encodeU r rd imm) = rd := by
  simp (disch := decide) only [rdOf, encodeU, extract_above, Nat.reduceSub, extract_low, Reg.ofBits_bits]
@[simp] theorem immUOf_encodeU (imm : BitVec 20) : immUOf (encodeU r rd imm) = imm := by
  simp (disch := decide) only [immUOf, encodeU, extract_above, Nat.reduceSub, BitVec.extractLsb'_eq_self]

@[simp] theorem rdOf_encodeUJ (imm : BitVec 21) : rdOf (encodeUJ r rd imm) = rd := by
  simp (disch := decide) only [rdOf, encodeUJ, extract_above, Nat.reduceSub, extract_low, Reg.ofBits_bits]
@[simp] theorem immUJOf_encodeUJ (imm : BitVec 21) (h : jumpOffsetOk imm = true) :
    immUJOf (encodeUJ r rd imm) = imm := by
  simp (disch := decide) only [immUJOf, encodeUJ, extract_above, Nat.reduceSub, extract_low,
    BitVec.extractLsb'_eq_self]
  rw [← extract_bit0_of_even h]
  simp (disch := decide) only [extract_adjacent]
  exact BitVec.extractLsb'_eq_self

/-! ### The fields of a word, encoded under a row whose codes the word carries -/

theorem encodeR_fields (ho : r.opcode = opcodeOf w) (h3 : r.f3 = funct3Of w) (h7 : r.f7 = funct7Of w) :
    encodeR r (rdOf w) (rs1Of w) (rs2Of w) = w := by
  simp (disch := decide) only [encodeR, ho, h3, h7, opcodeOf, funct3Of, funct7Of, rdOf, rs1Of, rs2Of,
    Reg.bits_ofBits, extract_adjacent]
  exact BitVec.extractLsb'_eq_self

theorem encodeI_fields (ho : r.opcode = opcodeOf w) (h3 : r.f3 = funct3Of w) :
    encodeI r (rdOf w) (rs1Of w) (immIOf w) = w := by
  simp (disch := decide) only [encodeI, ho, h3, opcodeOf, funct3Of, rdOf, rs1Of, immIOf, Reg.bits_ofBits,
    extract_adjacent]
  exact BitVec.extractLsb'_eq_self

theorem encodeS_fields (ho : r.opcode = opcodeOf w) (h3 : r.f3 = funct3Of w) :
    encodeS r (rs1Of w) (rs2Of w) (immSOf w) = w := by
  simp (disch := decide) only [encodeS, ho, h3, opcodeOf, funct3Of, rs1Of, rs2Of, immSOf, Reg.bits_ofBits,
    extract_above, Nat.reduceSub, extract_low, BitVec.extractLsb'_eq_self]
  simp (disch := decide) only [extract_adjacent]
  exact BitVec.extractLsb'_eq_self

theorem encodeSB_fields (ho : r.opcode = opcodeOf w) (h3 : r.f3 = funct3Of w) :
    encodeSB r (rs1Of w) (rs2Of w) (immSBOf w) = w := by
  simp (disch := decide) only [encodeSB, ho, h3, opcodeOf, funct3Of, rs1Of, rs2Of, immSBOf, Reg.bits_ofBits,
    extract_above, Nat.reduceSub, extract_low, BitVec.extractLsb'_eq_self]
  simp (disch := decide) only [extract_adjacent]
  exact BitVec.extractLsb'_eq_self

theorem encodeU_fields (ho : r.opcode = opcodeOf w) : encodeU r (rdOf w) (immUOf w) = w := by
  simp (disch := decide) only [encodeU, ho, opcodeOf, rdOf, immUOf, Reg.bits_ofBits, extract_adjacent]
  exact BitVec.extractLsb'_eq_self

theorem encodeUJ_fields (ho : r.opcode = opcodeOf w) : encodeUJ r (rdOf w) (immUJOf w) = w := by
  simp (disch := decide) only [encodeUJ, ho, opcodeOf, rdOf, immUJOf, Reg.bits_ofBits, extract_above,
    Nat.reduceSub, extract_low, BitVec.extractLsb'_eq_self]
  simp (disch := decide) only [extract_adjacent]
  exact BitVec.extractLsb'_eq_self

theorem branchOffsetOk_immSBOf : branchOffsetOk (immSBOf w) = true := by
  have hbit : (immSBOf w).getLsbD 0 = (0#1).getLsbD 0 := by
    rw [immSBOf, BitVec.getLsbD_append, if_pos Nat.one_pos]
  rw [branchOffsetOk, hbit]
  rfl

theorem jumpOffsetOk_immUJOf : jumpOffsetOk (immUJOf w) = true := by
  have hbit : (immUJOf w).getLsbD 0 = (0#1).getLsbD 0 := by
    rw [immUJOf, BitVec.getLsbD_append, if_pos Nat.one_pos]
  rw [jumpOffsetOk, hbit]
  rfl

end

/-! ### From an instruction to its word and back -/

/-- The word of an instruction is looked up as the instruction's own row (R100). -/
theorem lookup_encode (i : Instr) : Laws.EncodedRow.Statement i :=
  match i with
  | .add .. => Laws.EncodedRow.add ..
  | .sub .. => Laws.EncodedRow.sub ..
  | .sll .. => Laws.EncodedRow.sll ..
  | .slt .. => Laws.EncodedRow.slt ..
  | .xor .. => Laws.EncodedRow.xor ..
  | .srl .. => Laws.EncodedRow.srl ..
  | .sra .. => Laws.EncodedRow.sra ..
  | .or .. => Laws.EncodedRow.or ..
  | .and .. => Laws.EncodedRow.and ..
  | .mul .. => Laws.EncodedRow.mul ..
  | .div .. => Laws.EncodedRow.div ..
  | .rem .. => Laws.EncodedRow.rem ..
  | .addi .. => Laws.EncodedRow.addi ..
  | .andi .. => Laws.EncodedRow.andi ..
  | .ori .. => Laws.EncodedRow.ori ..
  | .lb .. => Laws.EncodedRow.lb ..
  | .lh .. => Laws.EncodedRow.lh ..
  | .lw .. => Laws.EncodedRow.lw ..
  | .ld .. => Laws.EncodedRow.ld ..
  | .lbu .. => Laws.EncodedRow.lbu ..
  | .sb .. => Laws.EncodedRow.sb ..
  | .sh .. => Laws.EncodedRow.sh ..
  | .sw .. => Laws.EncodedRow.sw ..
  | .sd .. => Laws.EncodedRow.sd ..
  | .beq .. => Laws.EncodedRow.beq ..
  | .bne .. => Laws.EncodedRow.bne ..
  | .blt .. => Laws.EncodedRow.blt ..
  | .bge .. => Laws.EncodedRow.bge ..
  | .auipc .. => Laws.EncodedRow.auipc ..
  | .lui .. => Laws.EncodedRow.lui ..
  | .jal .. => Laws.EncodedRow.jal ..
  | .jalr .. => Laws.EncodedRow.jalr ..

/-- No instruction is encoded as the halt word, which matches no row (R107). -/
theorem encode_ne_haltWord (i : Instr) : encode i ≠ Config.haltWord := by
  intro h
  have hrow : lookup (opcodeOf (encode i)) (funct3Of (encode i)) (funct7Of (encode i)) = some i.op.row :=
    lookup_encode i
  have hnone : lookup (opcodeOf Config.haltWord) (funct3Of Config.haltWord) (funct7Of Config.haltWord) = none := by
    decide
  rw [h, hnone] at hrow
  cases hrow

theorem decode_of_lookup {w : Word} {r : Row} (h0 : w ≠ Config.haltWord)
    (hr : lookup (opcodeOf w) (funct3Of w) (funct7Of w) = some r) : decode w = .ok (build r.op w) := by
  simp only [decode, if_neg h0, hr]

/-- The operand fields of an encoded word are the operands; an odd offset would lose its bit 0 (R93, R95). -/
theorem build_encode (i : Instr) (h : WellFormed i = true) : build i.op (encode i) = i := by
  cases i with
  | beq _ _ imm | bne _ _ imm | blt _ _ imm | bge _ _ imm =>
    have heven : branchOffsetOk imm = true := h
    simp [Instr.op, encode, build, heven]
  | jal _ imm =>
    have heven : jumpOffsetOk imm = true := h
    simp [Instr.op, encode, build, heven]
  | _ => simp [Instr.op, encode, build]

/-- Settles O1: an encoded word is not the halt word, has its instruction's row, and its fields are the operands. -/
theorem decodeOfEncodeIsIdentity : Obligations.DecodeOfEncodeIsIdentity := by
  intro i hwf
  rw [decode_of_lookup (encode_ne_haltWord i) (lookup_encode i), Op.row_op, build_encode i hwf]

/-! ### From a word to its instruction and back -/

/-- Every instruction built from a word has an even offset, where it has one (R93, R95). -/
theorem wellFormed_build (op : Op) (w : Word) : WellFormed (build op w) = true := by
  cases op with
  | beq | bne | blt | bge => exact branchOffsetOk_immSBOf w
  | jal => exact jumpOffsetOk_immUJOf w
  | _ => rfl

/-- Encoding the instruction built from a word gives the word back, where the word carries the row's codes. -/
theorem encode_build {op : Op} {w : Word} (ho : op.row.opcode = opcodeOf w)
    (h3 : ∀ x, op.row.funct3 = some x → x = funct3Of w) (h7 : ∀ x, op.row.funct7 = some x → x = funct7Of w) :
    encode (build op w) = w := by
  cases op with
  | add | sub | sll | slt | xor | srl | sra | or | and | mul | div | rem =>
    exact encodeR_fields _ w ho (h3 _ rfl) (h7 _ rfl)
  | addi | andi | ori | lb | lh | lw | ld | lbu | jalr => exact encodeI_fields _ w ho (h3 _ rfl)
  | sb | sh | sw | sd => exact encodeS_fields _ w ho (h3 _ rfl)
  | beq | bne | blt | bge => exact encodeSB_fields _ w ho (h3 _ rfl)
  | auipc | lui => exact encodeU_fields _ w ho
  | jal => exact encodeUJ_fields _ w ho

/-- Settles O2: what decodes is built from the word under a row whose codes the word carries. -/
theorem encodeOfDecodeIsIdentity : Obligations.EncodeOfDecodeIsIdentity := by
  intro w i h
  obtain ⟨op, hrow, rfl⟩ := Machine.exists_op_of_decode_ok h
  obtain ⟨-, ho, h3, h7⟩ := lookup_some hrow
  exact ⟨wellFormed_build op w, encode_build ho h3 h7⟩

end Sys2Proof
end

section
/-! PROOFS. The lookup as a search by key, as mask and match, and the keys it does not find (30_encoding.md sections 3
and 4). -/

namespace Sys2Proof

/-! ### The lookup by key -/

/-- The codes of a row are those of the three fields, where the row has codes. -/
def Row.HasKey (r : Row) (o : BitVec 7) (f3 : BitVec 3) (f7 : BitVec 7) : Prop :=
  r.opcode = o ∧ (∀ x, r.funct3 = some x → x = f3) ∧ ∀ x, r.funct7 = some x → x = f7

section
variable {o : BitVec 7} {f3 : BitVec 3} {f7 : BitVec 7} {r : Row}

theorem lookup_eq_some_iff : lookup o f3 f7 = some r ↔ r ∈ decodeTable ∧ r.HasKey o f3 f7 := by
  constructor
  · exact lookup_some
  · rintro ⟨hmem, rfl, h3, h7⟩
    obtain ⟨op, rfl⟩ := mem_decodeTable.1 hmem
    exact lookup_row op f3 f7 (fun x hx => (h3 x hx).symm) (fun x hx => (h7 x hx).symm)

theorem lookup_eq_none_iff : lookup o f3 f7 = none ↔ ∀ r ∈ decodeTable, ¬r.HasKey o f3 f7 := by
  simp only [Option.eq_none_iff_forall_ne_some, ne_eq, lookup_eq_some_iff, not_and]

end

/-! ### The lookup as mask and match -/

section
variable (r : Row) (w : Word)

theorem opcodeOf_pattern : opcodeOf r.pattern = r.opcode := by
  ext i hi
  have h12 : i < 12 := by omega
  have h25 : i < 25 := by omega
  have h32 : i < 32 := by omega
  simp [opcodeOf, Row.pattern, h12, h25, h32, hi]

theorem funct3Of_pattern : funct3Of r.pattern = r.f3 := by
  ext i hi
  have h25 : 12 + i < 25 := by omega
  have h32 : 12 + i < 32 ∧ i < 32 := by omega
  have hop : r.opcode.getLsbD (12 + i) = false := BitVec.getLsbD_of_ge _ _ (by omega)
  simp [funct3Of, Row.pattern, Row.f3, h25, h32, hop, hi]

theorem funct7Of_pattern : funct7Of r.pattern = r.f7 := by
  ext i hi
  have h32 : 25 + i < 32 ∧ i < 32 := by omega
  have h3 : (r.funct3.getD 0#3).getLsbD (25 + i - 12) = false := BitVec.getLsbD_of_ge _ _ (by omega)
  have hop : r.opcode.getLsbD (25 + i) = false := BitVec.getLsbD_of_ge _ _ (by omega)
  simp [funct7Of, Row.pattern, Row.f7, h32, h3, hop, hi]

/-- The mask keeps the opcode of every row, and each function code that the row has. -/
theorem opcodeOf_mask : opcodeOf r.mask = BitVec.allOnes 7 := by
  unfold Row.mask
  cases r.funct7 <;> cases r.funct3 <;> dsimp only <;> decide

theorem funct3Of_mask {x : BitVec 3} (h : r.funct3 = some x) : funct3Of r.mask = BitVec.allOnes 3 := by
  unfold Row.mask
  rw [h]
  cases r.funct7 <;> dsimp only <;> decide

theorem funct7Of_mask {x : BitVec 7} (h : r.funct7 = some x) : funct7Of r.mask = BitVec.allOnes 7 := by
  unfold Row.mask
  rw [h]
  cases r.funct3 <;> dsimp only <;> decide

/-- A word matches a row exactly when its fields carry the row's codes. -/
theorem Row.matches_iff_hasKey : r.Matches w ↔ r.HasKey (opcodeOf w) (funct3Of w) (funct7Of w) := by
  constructor
  · intro h
    have hfield : ∀ k n, w.extractLsb' k n &&& r.mask.extractLsb' k n = r.pattern.extractLsb' k n :=
      fun k n => BitVec.extractLsb'_and.symm.trans (congrArg _ h)
    refine ⟨?_, fun x hx => ?_, fun x hx => ?_⟩
    · calc r.opcode = opcodeOf w &&& opcodeOf r.mask := ((hfield 0 7).trans (opcodeOf_pattern r)).symm
        _ = opcodeOf w := by rw [opcodeOf_mask, BitVec.and_allOnes]
    · calc x = r.f3 := (Laws.EncodedRow.f3_of_some hx).symm
        _ = funct3Of w &&& funct3Of r.mask := ((hfield 12 3).trans (funct3Of_pattern r)).symm
        _ = funct3Of w := by rw [funct3Of_mask r hx, BitVec.and_allOnes]
    · calc x = r.f7 := (Laws.EncodedRow.f7_of_some hx).symm
        _ = funct7Of w &&& funct7Of r.mask := ((hfield 25 7).trans (funct7Of_pattern r)).symm
        _ = funct7Of w := by rw [funct7Of_mask r hx, BitVec.and_allOnes]
  · rintro ⟨ho, h3, h7⟩
    exact Row.matches_of_fields ho h3 h7

end

/-- Settles O3: the lookup is the search by key, and matching in the mask form is carrying the key. -/
theorem lookupIsMaskAndMatch : Obligations.LookupIsMaskAndMatch := by
  intro w r
  rw [lookup_eq_some_iff, Row.matches_iff_hasKey]

/-! ### The keys of no row -/

/-- The rows under one opcode. -/
def rowsAt (o : BitVec 7) : List Row := decodeTable.filter fun r => r.opcode == o

/-- The opcodes of the table, as numbers (R101 to R106). -/
def tableOpcodes : List Nat :=
  [0b0110011, 0b0010011, 0b0000011, 0b0100011, 0b1100011, 0b1100111, 0b0010111, 0b0110111, 0b1101111]

theorem opcode_mem_tableOpcodes : ∀ r ∈ decodeTable, r.opcode.toNat ∈ tableOpcodes := by decide

/-- The classes (a) to (g) of R108, by the numbers of the three fields. -/
def IllegalKey (op f3 f7 : Nat) : Prop :=
  (op = 0b0110011 ∧ (f7, f3) ∉ [(0, 0), (32, 0), (0, 1), (0, 2), (0, 4), (0, 5), (32, 5), (0, 6), (0, 7),
      (1, 0), (1, 4), (1, 6)]) ∨
  (op = 0b0010011 ∧ f3 ∈ [1, 2, 3, 4, 5]) ∨
  (op = 0b0000011 ∧ f3 ∈ [5, 6, 7]) ∨
  (op = 0b0100011 ∧ f3 ∈ [4, 5, 6, 7]) ∨
  (op = 0b1100011 ∧ f3 ∈ [2, 3, 6, 7]) ∨
  (op = 0b1100111 ∧ f3 ≠ 0) ∨
  op ∉ tableOpcodes

section
variable {o : BitVec 7} {f3 : BitVec 3} {f7 : BitVec 7}

theorem mem_rowsAt {r : Row} : r ∈ rowsAt o ↔ r ∈ decodeTable ∧ r.opcode = o := by
  simp [rowsAt]

theorem lookup_eq_none_iff_rowsAt : lookup o f3 f7 = none ↔ ∀ r ∈ rowsAt o, ¬r.HasKey o f3 f7 := by
  simp only [lookup_eq_none_iff, mem_rowsAt, and_imp]
  exact ⟨fun h r hr _ => h r hr, fun h r hr hkey => h r hr hkey.1 hkey⟩

/-- Under an opcode whose rows are keyed on both function codes, the keys of no row are the other pairs of codes. -/
theorem lookup_eq_none_iff_of_codes {keys : List (Nat × Nat)}
    (h : ∀ r ∈ rowsAt o, r.opcode = o ∧ r.funct3 = some r.f3 ∧ r.funct7 = some r.f7)
    (hk : (rowsAt o).map (fun r => (r.f7.toNat, r.f3.toNat)) = keys) :
    lookup o f3 f7 = none ↔ (f7.toNat, f3.toNat) ∉ keys := by
  rw [lookup_eq_none_iff_rowsAt, ← hk, List.mem_map, not_exists]
  refine forall_congr' fun r => (imp_congr_right fun hr => not_congr ?_).trans not_and.symm
  obtain ⟨ho, h3, h7⟩ := h r hr
  simp [Row.HasKey, ho, h3, h7, BitVec.toNat_inj, and_comm]

/-- Under an opcode whose rows are keyed on funct3 alone, the keys of no row are those of the other funct3 codes. -/
theorem lookup_eq_none_iff_of_funct3 {others : List Nat}
    (h : ∀ r ∈ rowsAt o, r.opcode = o ∧ r.funct3 = some r.f3 ∧ r.funct7 = none)
    (hk : ∀ n < 8, n ∈ others ↔ n ∉ (rowsAt o).map fun r => r.f3.toNat) :
    lookup o f3 f7 = none ↔ f3.toNat ∈ others := by
  rw [lookup_eq_none_iff_rowsAt, hk f3.toNat f3.isLt, List.mem_map, not_exists]
  refine forall_congr' fun r => (imp_congr_right fun hr => not_congr ?_).trans not_and.symm
  obtain ⟨ho, h3, h7⟩ := h r hr
  simp [Row.HasKey, ho, h3, h7, BitVec.toNat_inj]

/-- Under an opcode that is a row's whole key every word finds that row. -/
theorem lookup_ne_none_of_opcode (op : Op) (h3 : op.row.funct3 = none) (h7 : op.row.funct7 = none) :
    lookup op.row.opcode f3 f7 ≠ none := by
  rw [lookup_row op f3 f7 (Laws.EncodedRow.no_code h3) (Laws.EncodedRow.no_code h7)]
  exact Option.some_ne_none _

theorem lookup_eq_none_of_other_opcode (h : ∀ r ∈ decodeTable, r.opcode ≠ o) : lookup o f3 f7 = none :=
  lookup_eq_none_iff.2 fun r hr hkey => h r hr hkey.1

end

/-- The lookup finds nothing exactly in the classes of R108: opcode by opcode, by what its rows are keyed on. -/
theorem lookup_eq_none_iff_illegalKey (o : BitVec 7) (f3 : BitVec 3) (f7 : BitVec 7) :
    lookup o f3 f7 = none ↔ IllegalKey o.toNat f3.toNat f7.toNat := by
  by_cases hop : o.toNat ∈ tableOpcodes
  · have hmem : o ∈ tableOpcodes.map (BitVec.ofNat 7) :=
      List.mem_map.2 ⟨_, hop, (BitVec.ofNat_toNat 7 o).trans (BitVec.setWidth_eq o)⟩
    simp only [tableOpcodes, List.map_cons, List.map_nil, List.mem_cons, List.not_mem_nil, or_false] at hmem
    rcases hmem with rfl | rfl | rfl | rfl | rfl | rfl | rfl | rfl | rfl
    · rw [lookup_eq_none_iff_of_codes (by decide) (keys := [(0, 0), (32, 0), (0, 1), (0, 2), (0, 4), (0, 5), (32, 5),
        (0, 6), (0, 7), (1, 0), (1, 4), (1, 6)]) (by decide)]
      simp [IllegalKey, tableOpcodes]
    · rw [lookup_eq_none_iff_of_funct3 (others := [1, 2, 3, 4, 5]) (by decide) (by decide)]
      simp [IllegalKey, tableOpcodes]
    · rw [lookup_eq_none_iff_of_funct3 (others := [5, 6, 7]) (by decide) (by decide)]
      simp [IllegalKey, tableOpcodes]
    · rw [lookup_eq_none_iff_of_funct3 (others := [4, 5, 6, 7]) (by decide) (by decide)]
      simp [IllegalKey, tableOpcodes]
    · rw [lookup_eq_none_iff_of_funct3 (others := [2, 3, 6, 7]) (by decide) (by decide)]
      simp [IllegalKey, tableOpcodes]
    · have hcodes : ∀ n < 8, n ∈ [1, 2, 3, 4, 5, 6, 7] ↔ n ≠ 0 := by decide
      rw [lookup_eq_none_iff_of_funct3 (others := [1, 2, 3, 4, 5, 6, 7]) (by decide) (by decide), hcodes _ f3.isLt]
      simp [IllegalKey, tableOpcodes]
    · exact iff_of_false (lookup_ne_none_of_opcode .auipc rfl rfl) (by simp [IllegalKey, tableOpcodes])
    · exact iff_of_false (lookup_ne_none_of_opcode .lui rfl rfl) (by simp [IllegalKey, tableOpcodes])
    · exact iff_of_false (lookup_ne_none_of_opcode .jal rfl rfl) (by simp [IllegalKey, tableOpcodes])
  · have hother : ∀ r ∈ decodeTable, r.opcode ≠ o := fun r hr ho => hop (ho ▸ opcode_mem_tableOpcodes r hr)
    have hillegal : IllegalKey o.toNat f3.toNat f7.toNat := by simp only [IllegalKey, hop, not_false_eq_true, or_true]
    exact iff_of_true (lookup_eq_none_of_other_opcode hother) hillegal

/-! ### The words that are no instruction -/

/-- What decodes to nothing is the halt word, or a non-zero word that the lookup does not find (R107, R108). -/
theorem decode_eq_error_iff {w : Word} {e : Reject} :
    decode w = .error e ↔ (w = 0#32 ∧ e = .haltWord) ∨
      (w ≠ 0#32 ∧ lookup (opcodeOf w) (funct3Of w) (funct7Of w) = none ∧ e = .unidentifiable w) := by
  unfold decode
  by_cases h0 : w = 0#32
  · simp [h0, Config.haltWord, eq_comm]
  · cases hr : lookup (opcodeOf w) (funct3Of w) (funct7Of w) <;> simp [h0, Config.haltWord, eq_comm]

theorem opcodeOf_toNat (w : Word) : (opcodeOf w).toNat = w.toNat % 128 := by
  simp only [opcodeOf, Machine.toNat_field, Nat.reducePow, Nat.div_one]

theorem funct3Of_toNat (w : Word) : (funct3Of w).toNat = w.toNat / 2 ^ 12 % 8 :=
  Machine.toNat_field w 12 3

theorem funct7Of_toNat (w : Word) : (funct7Of w).toNat = w.toNat / 2 ^ 25 := by
  have hw : w.toNat < 2 ^ 32 := w.isLt
  rw [funct7Of, Machine.toNat_field]
  omega

/-- Settles O6: a decode error is a non-zero word whose key is none of the table's. -/
theorem illegalWordsAreTheListedClasses : Obligations.IllegalWordsAreTheListedClasses := by
  intro w
  have hkey := lookup_eq_none_iff_illegalKey (opcodeOf w) (funct3Of w) (funct7Of w)
  rw [opcodeOf_toNat, funct3Of_toNat, funct7Of_toNat] at hkey
  have herror : decode w = .error (.unidentifiable w) ↔
      w ≠ 0#32 ∧ lookup (opcodeOf w) (funct3Of w) (funct7Of w) = none := by
    simp [decode_eq_error_iff]
  exact herror.trans (and_congr_right fun _ => hkey)

/-! ### The table and worked words, by evaluation -/

/-- Settles O4: the values of the 32 rows. -/
theorem rowsHaveTheTablesMatchAndMask : Obligations.RowsHaveTheTablesMatchAndMask := by
  unfold Obligations.RowsHaveTheTablesMatchAndMask
  decide

/-- Settles O5: the six words. -/
theorem workedWordsDecode : Obligations.WorkedWordsDecode := by
  unfold Obligations.WorkedWordsDecode
  decide

end Sys2Proof
end

section
/-! PROOFS. What every step does: it stops precisely or completes, and it keeps the form of a state (40_pipeline.md
section 7, 60_exceptions.md sections 1, 3 and 7, 10_state.md). -/

namespace Sys2Proof.Machine

/-! ### Stop or completion -/

/-- An instruction that raises no execute error completes: the core goes on and one cycle is counted. -/
theorem exec_completes_of_not_raises {i : Instr} {s : State} (h : raises i s = none) :
    ∃ t, exec i s = .next t ∧ t.terminated = s.terminated ∧ t.stopReason = s.stopReason ∧
      t.cycles = s.cycles + 1 := by
  cases exec_outcome i s with
  | stop e h' _ => cases h.symm.trans h'
  | write rd v p _ _ hx => exact ⟨_, hx, by simp, by simp, by simp⟩
  | store ea n v _ _ _ _ hx => exact ⟨_, hx, by simp, by simp, by simp⟩
  | branch c p _ _ _ hx => exact ⟨_, hx, rfl, rfl, rfl⟩

/-- Settles O12: the four stop conditions in the order of `stopCondition`, and completion where none holds. -/
theorem everyStepStopsPreciselyOrCompletes : Obligations.EveryStepStopsPreciselyOrCompletes := by
  intro s hrun
  have hfetch : s.fetch = wordAtPc s := s.fetch_eq_wordAtPc
  unfold stopCondition
  by_cases h0 : wordAtPc s = 0#32
  · rw [if_pos h0]
    exact step_of_reject hrun (by rw [hfetch, h0]; exact decode_haltWord)
  rw [if_neg h0]
  cases hd : decode (wordAtPc s) with
  | error e =>
    obtain ⟨hzero, -⟩ | ⟨-, -, rfl⟩ := decode_eq_error_iff.1 hd
    · exact absurd hzero h0
    · exact step_of_reject (r := .unidentifiable (wordAtPc s)) hrun (hfetch ▸ hd)
  | ok i =>
    have hstep : step s = exec i s := step_of_decode hrun (hfetch ▸ hd)
    dsimp only
    cases hr : raises i s with
    | some e => exact hstep.trans (stopsWith_of_raises hr)
    | none =>
      obtain ⟨t, hx, hterm, hreason, hcycles⟩ := exec_completes_of_not_raises hr
      exact ⟨t, hstep.trans hx, hterm.trans hrun, hreason, hcycles⟩

/-- Settles O8: the four bytes at `pc` are the word stage F reads. -/
theorem stepRunsTheDecodedInstruction : Obligations.StepRunsTheDecodedInstruction := by
  intro s i hrun hd
  exact step_of_decode hrun (s.fetch_eq_wordAtPc ▸ hd)

/-- Settles O13: a step asks the Termination Flag first. -/
theorem terminatedCoreTakesNoStep : Obligations.TerminatedCoreTakesNoStep := by
  intro s hterm
  exact step_of_terminated hterm

/-- Settles O10: `div` and `rem` raise `divideByZero` on a zero divisor, and what raises an error stops with it. -/
theorem divisionByZeroStops : Obligations.DivisionByZeroStops := by
  intro s rd rs1 rs2 hzero
  have hdiv : raises (.div rd rs1 rs2) s = some .divideByZero := if_pos hzero
  have hrem : raises (.rem rd rs1 rs2) s = some .divideByZero := if_pos hzero
  exact ⟨stopsWith_of_raises hdiv, stopsWith_of_raises hrem⟩

/-! ### The form of a state -/

/-- Each of the four outcomes of an instruction keeps the form of a state. -/
theorem exec_keeps_wf {i : Instr} {s t : State} (hs : s.wf) (h : exec i s = .next t) : t.wf := by
  cases exec_outcome i s with
  | stop e _ hx =>
    cases h.symm.trans hx
    exact State.raise_wf hs
  | write rd v p _ _ hx =>
    cases h.symm.trans hx
    exact State.retire_wf (State.writeReg_wf hs)
  | store ea n v _ _ _ _ hx =>
    cases h.symm.trans hx
    exact State.retire_wf (State.memWrite_wf hs)
  | branch c p _ _ _ hx =>
    cases h.symm.trans hx
    exact State.retire_wf hs

/-- Settles O15: a step is `exec` of an instruction or `raise`. -/
theorem everyStepKeepsTheFormOfTheState : Obligations.EveryStepKeepsTheFormOfTheState := by
  intro s t hs h
  obtain ⟨-, ⟨i, -, hx⟩ | ⟨r, -, rfl⟩⟩ := step_cases h
  · exact exec_keeps_wf hs hx
  · exact State.raise_wf hs

/-- Settles O16: empty memory and marks, and a register file whose slot 0 is 0. -/
theorem resetHasTheFormOfAState : Obligations.ResetHasTheFormOfAState := by
  unfold Obligations.ResetHasTheFormOfAState
  decide

end Sys2Proof.Machine
end

section
/-! PROOFS. The five stages in sequence are the step (40_pipeline.md sections 2 to 7). -/

namespace Sys2Proof.Machine

/-! ### The stages after stage D, as one function of the Decoded Instruction -/

/-- Stages M and W of an executed instruction, and the cycle it counts. -/
def finishCycle (s : State) (d : DecodedInstruction) (r : ExecutionResult) : State :=
  let m := stageM s d r
  let t := stageW m.1 d m.2
  { t with cycles := t.cycles + 1 }

/-- Stages X, M and W: a raised condition only stops the core. -/
def finishDecoded (s : State) (d : DecodedInstruction) : Result :=
  match stageX d s.pc with
  | .ok r => .next (finishCycle s d r)
  | .error e => stopWith e s

/-- The Decoded Instruction of an operation and a word (R124). -/
def decodedOf (op : Op) (s : State) (w : Word) : DecodedInstruction where
  format := op.format
  op := op
  operand1 := formatOperand1 op.format s w
  operand2 := formatOperand2 op.format s w
  rd := formatRd op.format w
  imm := formatImm op.format w
  writeBack := formatWriteBack op.format
  memOp := memOpOf op

theorem stageD_of_lookup {s : State} {w : Word} {op : Op}
    (h : lookup (opcodeOf w) (funct3Of w) (funct7Of w) = some op.row) : stageD s w = .ok (decodedOf op s w) := by
  simp only [stageD, h, Op.row_op, Op.row_format, decodedOf]

/-! ### The stage view by its cases -/

theorem pipelineStep_of_halt {s : State} (hrun : s.terminated = false) (h : s.fetch = 0#32) :
    pipelineStep s = stopWith .halt s := by
  have hF : stageF s = .error .halt := if_pos h
  simp [pipelineStep, hrun, pipelineCycle, hF, bind, Except.bind, stopWith]

theorem pipelineStep_of_no_row {s : State} (hrun : s.terminated = false) (h : s.fetch ≠ 0#32)
    (hr : lookup (opcodeOf s.fetch) (funct3Of s.fetch) (funct7Of s.fetch) = none) :
    pipelineStep s = stopWith (.decodeError s.fetch) s := by
  have hF : stageF s = .ok s.fetch := if_neg h
  have hD : stageD s s.fetch = .error (.decodeError s.fetch) := by simp only [stageD, hr]
  simp [pipelineStep, hrun, pipelineCycle, hF, hD, bind, Except.bind, stopWith]

theorem pipelineStep_of_row {s : State} {op : Op} (hrun : s.terminated = false) (h : s.fetch ≠ 0#32)
    (hr : lookup (opcodeOf s.fetch) (funct3Of s.fetch) (funct7Of s.fetch) = some op.row) :
    pipelineStep s = finishDecoded s (decodedOf op s s.fetch) := by
  have hF : stageF s = .ok s.fetch := if_neg h
  have hD : stageD s s.fetch = .ok (decodedOf op s s.fetch) := stageD_of_lookup hr
  unfold finishDecoded
  cases hX : stageX (decodedOf op s s.fetch) s.pc <;>
    simp [pipelineStep, hrun, pipelineCycle, hF, hD, hX, bind, Except.bind, finishCycle, stopWith]

/-! ### The outcomes of the stages after stage D -/

section
variable {s : State} {d : DecodedInstruction} {r : ExecutionResult}

/-- Stage W is the register write of R22, where the format has a write-back. -/
theorem stageW_eq_writeReg (t : State) (v : Word) (hw : d.writeBack = true) : stageW t d v = t.writeReg d.rd v := by
  unfold stageW State.writeReg
  by_cases h0 : d.rd = 0 <;> simp [hw, h0]

theorem stageW_of_no_writeBack (t : State) (v : Word) (hw : d.writeBack = false) : stageW t d v = t := by
  simp [stageW, hw]

theorem finishDecoded_of_result (hX : stageX d s.pc = .ok r) : finishDecoded s d = .next (finishCycle s d r) := by
  simp only [finishDecoded, hX]

/-- With a write-back, and memory left alone by stage M: the instruction completes by a register write. -/
theorem finishDecoded_writes {p v : Word} (hX : stageX d s.pc = .ok r) (hM : stageM s d r = ({ s with pc := p }, v))
    (hw : d.writeBack = true) : finishDecoded s d = completeTo d.rd v p s := by
  rw [finishDecoded_of_result hX, finishCycle, hM, stageW_eq_writeReg _ _ hw, completeTo]
  unfold State.writeReg
  split <;> rfl

/-- Without a write-back: the instruction completes at the `pc` stage M selects, with the memory it leaves. -/
theorem finishDecoded_no_writeBack {t : State} {p v : Word} (hX : stageX d s.pc = .ok r)
    (hM : stageM s d r = ({ t with pc := p }, v)) (hw : d.writeBack = false) :
    finishDecoded s d = .next (t.retire p) := by
  rw [finishDecoded_of_result hX, finishCycle, hM, stageW_of_no_writeBack _ _ hw]
  rfl

/-- A branch: the recorded offset is added to `pc` when the condition holds (R138, R230). -/
theorem finishDecoded_branch {c : Bool} {imm : Word} (hX : stageX d s.pc = .ok (branchResult c imm))
    (hm : d.memOp = none) (hw : d.writeBack = false) : finishDecoded s d = completeBranch c (s.pc + imm) s := by
  have hM : stageM s d (branchResult c imm) =
      ({ s with pc := if c then s.pc + imm else s.nextPc }, (branchResult c imm).registerData) := by
    cases c <;> simp only [stageM, hm] <;> rfl
  exact finishDecoded_no_writeBack hX hM hw

/-- A shift: stage X raises the execute error of R264 or hands on the result. -/
theorem finishDecoded_shift {f : Word → Nat → Word} {rs1 rs2 : Reg}
    (hX : stageX d s.pc = shiftResult f (s.readReg rs1) (s.readReg rs2)) (hm : d.memOp = none)
    (hw : d.writeBack = true) : finishDecoded s d = executeShift f d.rd rs1 rs2 s := by
  unfold shiftResult at hX
  unfold executeShift
  split
  · next hneg => simp only [finishDecoded, hX, hneg, if_true]
  · next hneg =>
    rw [if_neg hneg] at hX
    exact finishDecoded_writes hX (by simp only [stageM, hm]; rfl) hw

/-- A division: stage X raises the execute error of R263 or hands on the result. -/
theorem finishDecoded_division {f : Word → Word → Word} {rs1 rs2 : Reg}
    (hX : stageX d s.pc = divisionResult f (s.readReg rs1) (s.readReg rs2)) (hm : d.memOp = none)
    (hw : d.writeBack = true) : finishDecoded s d = executeDivision f d.rd rs1 rs2 s := by
  unfold divisionResult at hX
  unfold executeDivision
  split
  · next hzero => simp only [finishDecoded, hX, hzero, if_true]
  · next hzero =>
    rw [if_neg hzero] at hX
    exact finishDecoded_writes hX (by simp only [stageM, hm]; rfl) hw

end

/-- The stages after stage D do what the operation's own rule says. -/
theorem finishDecoded_eq_exec (op : Op) (s : State) (w : Word) :
    finishDecoded s (decodedOf op s w) = exec (build op w) s := by
  cases op with
  | sll | srl | sra => exact finishDecoded_shift rfl rfl rfl
  | div | rem => exact finishDecoded_division rfl rfl rfl
  | sb | sh | sw | sd => exact finishDecoded_no_writeBack rfl rfl rfl
  | beq | bne | blt | bge => exact finishDecoded_branch rfl rfl rfl
  | auipc =>
    exact (finishDecoded_writes rfl rfl rfl).trans
      (congrArg (fun v => complete (rdOf w) (s.pc + Config.auipcBias + v) s) (upperImm_immUOf w).symm)
  | lui =>
    exact (finishDecoded_writes rfl rfl rfl).trans
      (congrArg (fun v => complete (rdOf w) v s) (upperImm_immUOf w).symm)
  | _ => exact finishDecoded_writes rfl rfl rfl

/-- Settles O14: the halt word, a word of no row, and a word of a row. -/
theorem fiveStagesRefineTheStep : Obligations.FiveStagesRefineTheStep := by
  intro s
  cases hrun : s.terminated with
  | true =>
    rw [step_of_terminated hrun]
    exact if_pos hrun
  | false =>
    by_cases h0 : s.fetch = 0#32
    · rw [pipelineStep_of_halt hrun h0]
      exact (step_of_reject hrun (decode_eq_error_iff.2 (.inl ⟨h0, rfl⟩))).symm
    cases hr : lookup (opcodeOf s.fetch) (funct3Of s.fetch) (funct7Of s.fetch) with
    | none =>
      rw [pipelineStep_of_no_row hrun h0 hr]
      exact (step_of_reject hrun (decode_eq_error_iff.2 (.inr ⟨h0, hr, rfl⟩))).symm
    | some r =>
      obtain ⟨op, rfl⟩ := mem_decodeTable.1 (lookup_some hr).1
      rw [pipelineStep_of_row hrun h0 hr, finishDecoded_eq_exec, step_of_decode hrun (decode_of_lookup h0 hr),
        Op.row_op]

end Sys2Proof.Machine
end

section
/-! PROOFS. What has no influence: an instruction run from two states that agree on what it reads does the same to
both (10_state.md sections 2, 4 and 5, 60_exceptions.md section 7). -/

namespace Sys2Proof.Machine

/-! ### Two runs of one instruction -/

/-- An instruction has the same effect on two states: it stops both with one error, or writes one register with one
value, or stores the same bytes, or only moves `pc`, and goes on at the same address. -/
inductive SameEffect (i : Instr) (s s' : State) : Prop where
  | stop (e : ExecuteError) (h : raises i s = some e) (hx : exec i s = .next (s.raise (.executeError e)))
      (hx' : exec i s' = .next (s'.raise (.executeError e)))
  | write (rd : Reg) (v p : Word) (h : raises i s = none) (hd : i.dest = some rd)
      (hx : exec i s = .next ((s.writeReg rd v).retire p)) (hx' : exec i s' = .next ((s'.writeReg rd v).retire p))
  | store (ea : Word) (n : Nat) (v : BitVec (8 * n)) (p : Word) (hd : i.dest = none)
      (hx : exec i s = .next ((s.memWrite ea n v).retire p))
      (hx' : exec i s' = .next ((s'.memWrite ea n v).retire p))
  | branch (p : Word) (hd : i.dest = none) (hx : exec i s = .next (s.retire p))
      (hx' : exec i s' = .next (s'.retire p))

section
variable {i : Instr} {s s' : State}

theorem SameEffect.of_completeTo {rd : Reg} {v v' p p' : Word} (h : raises i s = none) (hd : i.dest = some rd)
    (hx : exec i s = completeTo rd v p s) (hx' : exec i s' = completeTo rd v' p' s') (hv : v' = v) (hp : p' = p) :
    SameEffect i s s' := by
  subst hv hp
  exact .write rd v' p' h hd hx hx'

theorem SameEffect.of_completeStore {ea ea' : Word} {n : Nat} {v v' : BitVec (8 * n)} (hd : i.dest = none)
    (hx : exec i s = completeStore ea n v s) (hx' : exec i s' = completeStore ea' n v' s') (hea : ea' = ea)
    (hv : v' = v) (hp : s'.nextPc = s.nextPc) : SameEffect i s s' := by
  subst hea hv
  refine .store ea' n v' s.nextPc hd hx ?_
  rw [hx', completeStore, hp]

theorem SameEffect.of_completeBranch {c c' : Bool} {p p' : Word} (hd : i.dest = none)
    (hx : exec i s = completeBranch c p s) (hx' : exec i s' = completeBranch c' p' s') (hc : c' = c) (hp : p' = p)
    (hn : s'.nextPc = s.nextPc) : SameEffect i s s' := by
  subst hc hp
  refine .branch _ hd hx ?_
  rw [hx', completeBranch, hn]

theorem SameEffect.of_executeShift {f : Word → Nat → Word} {rd rs1 rs2 : Reg}
    (hr : raises i s = if (s.readReg rs2).toInt < 0 then some .negativeShift else none) (hd : i.dest = some rd)
    (hx : exec i s = executeShift f rd rs1 rs2 s) (hx' : exec i s' = executeShift f rd rs1 rs2 s')
    (h1 : s'.readReg rs1 = s.readReg rs1) (h2 : s'.readReg rs2 = s.readReg rs2) (hn : s'.nextPc = s.nextPc) :
    SameEffect i s s' := by
  unfold executeShift at hx hx'
  rw [h1, h2] at hx'
  by_cases hneg : (s.readReg rs2).toInt < 0
  · rw [isNegative, decide_eq_true hneg] at hx hx'
    exact .stop _ (hr.trans (if_pos hneg)) hx hx'
  · rw [isNegative, decide_eq_false hneg] at hx hx'
    exact .of_completeTo (hr.trans (if_neg hneg)) hd hx hx' rfl hn

theorem SameEffect.of_executeDivision {f : Word → Word → Word} {rd rs1 rs2 : Reg}
    (hr : raises i s = if s.readReg rs2 = 0#32 then some .divideByZero else none) (hd : i.dest = some rd)
    (hx : exec i s = executeDivision f rd rs1 rs2 s) (hx' : exec i s' = executeDivision f rd rs1 rs2 s')
    (h1 : s'.readReg rs1 = s.readReg rs1) (h2 : s'.readReg rs2 = s.readReg rs2) (hn : s'.nextPc = s.nextPc) :
    SameEffect i s s' := by
  unfold executeDivision at hx hx'
  rw [h1, h2] at hx'
  by_cases hzero : s.readReg rs2 = 0#32
  · rw [isZero, beq_iff_eq.2 hzero] at hx hx'
    exact .stop _ (hr.trans (if_pos hzero)) hx hx'
  · rw [isZero, beq_eq_false_iff_ne.2 hzero] at hx hx'
    exact .of_completeTo (hr.trans (if_neg hzero)) hd hx hx' rfl hn

/-- The effect of an instruction depends on its source registers, on `pc` and on the bytes of memory alone. -/
theorem sameEffect_of_same_inputs (hreg : ∀ q ∈ i.sources, s'.readReg q = s.readReg q) (hpc : s'.pc = s.pc)
    (hbyte : ∀ a, s'.readByte a = s.readByte a) : SameEffect i s s' := by
  have hn : s'.nextPc = s.nextPc := congrArg (· + 4#32) hpc
  have hmem : ∀ a n, s'.memRead a n = s.memRead a n := State.memRead_congr hbyte
  have hea : ∀ q imm, s'.readReg q = s.readReg q → effectiveAddress s' q imm = effectiveAddress s q imm :=
    fun q imm h => congrArg (· + sext imm) h
  have hrel : ∀ {n : Nat} (imm : BitVec n), relativeTarget s' imm = relativeTarget s imm :=
    fun imm => congrArg (· + sext imm) hpc
  cases i with
  | sll _ a b | srl _ a b | sra _ a b =>
    exact .of_executeShift rfl rfl rfl rfl (hreg a (by simp [Instr.sources])) (hreg b (by simp [Instr.sources])) hn
  | div _ a b | rem _ a b =>
    exact .of_executeDivision rfl rfl rfl rfl (hreg a (by simp [Instr.sources])) (hreg b (by simp [Instr.sources])) hn
  | add _ a b | sub _ a b | slt _ a b | xor _ a b | or _ a b | and _ a b | mul _ a b =>
    have ha : s'.readReg a = s.readReg a := hreg a (by simp [Instr.sources])
    have hb : s'.readReg b = s.readReg b := hreg b (by simp [Instr.sources])
    exact .of_completeTo rfl rfl rfl rfl (by rw [ha, hb]) hn
  | addi _ a _ | andi _ a _ | ori _ a _ =>
    have ha : s'.readReg a = s.readReg a := hreg a (by simp [Instr.sources])
    exact .of_completeTo rfl rfl rfl rfl (by rw [ha]) hn
  | lb _ a imm | lh _ a imm | lw _ a imm | ld _ a imm | lbu _ a imm =>
    have ha : s'.readReg a = s.readReg a := hreg a (by simp [Instr.sources])
    exact .of_completeTo rfl rfl rfl rfl (by rw [hea a imm ha, hmem]) hn
  | sb a b imm | sh a b imm | sw a b imm | sd a b imm =>
    have ha : s'.readReg a = s.readReg a := hreg a (by simp [Instr.sources])
    have hb : s'.readReg b = s.readReg b := hreg b (by simp [Instr.sources])
    exact .of_completeStore rfl rfl rfl (hea a imm ha) (by rw [hb]) hn
  | beq a b imm | bne a b imm | blt a b imm | bge a b imm =>
    have ha : s'.readReg a = s.readReg a := hreg a (by simp [Instr.sources])
    have hb : s'.readReg b = s.readReg b := hreg b (by simp [Instr.sources])
    exact .of_completeBranch rfl rfl rfl (by rw [ha, hb]) (hrel imm) hn
  | auipc => exact .of_completeTo rfl rfl rfl rfl (by rw [hpc]) hn
  | lui => exact .of_completeTo rfl rfl rfl rfl rfl hn
  | jal _ imm => exact .of_completeTo rfl rfl rfl rfl hn (hrel imm)
  | jalr _ a imm =>
    have ha : s'.readReg a = s.readReg a := hreg a (by simp [Instr.sources])
    exact .of_completeTo rfl rfl rfl rfl hn (by rw [ha])

end

/-- Where a state steps to `t`, a state with the same flag, `pc` and bytes takes the step of the same kind: it runs the
same instruction, or is stopped by the same word. -/
theorem step_of_same_word {s t s' : State} (h : step s = .next t) (hterm : s'.terminated = s.terminated)
    (hpc : s'.pc = s.pc) (hbyte : ∀ a, s'.readByte a = s.readByte a) :
    s.terminated = false ∧ ((∃ i, exec i s = .next t ∧ step s' = exec i s') ∨
      ∃ r, t = s.raise r ∧ step s' = .next (s'.raise r)) := by
  have hfetch : s'.fetch = s.fetch := by
    unfold State.fetch
    rw [hpc, State.memRead_congr hbyte]
  obtain ⟨hrun, ⟨i, hd, hx⟩ | ⟨r, hd, rfl⟩⟩ := step_cases h
  · exact ⟨hrun, .inl ⟨i, hx, step_of_decode (hterm.trans hrun) (hfetch ▸ hd)⟩⟩
  · exact ⟨hrun, .inr ⟨_, rfl, step_of_reject (hterm.trans hrun) (hfetch ▸ hd)⟩⟩

/-! ### Operations on a state with one field replaced -/

section
variable (s : State) (a : Word) (n : Nat) (u : BitVec (8 * n))

theorem State.memWrite_with_x (y : Vector Word 32) :
    State.memWrite { s with x := y } a n u = { s.memWrite a n u with x := y } := by
  induction n generalizing s a with
  | zero => rfl
  | succ n ih => exact ih (s.writeByte a (u.extractLsb' 0 8)) _ _

theorem State.memWrite_with_cycles (k : Nat) :
    State.memWrite { s with cycles := k } a n u = { s.memWrite a n u with cycles := k } := by
  induction n generalizing s a with
  | zero => rfl
  | succ n ih => exact ih (s.writeByte a (u.extractLsb' 0 8)) _ _

theorem State.memWrite_with_written (w : List Nat) :
    ∃ w', State.memWrite { s with written := w } a n u = { s.memWrite a n u with written := w' } := by
  induction n generalizing s a w with
  | zero => exact ⟨w, rfl⟩
  | succ n ih => exact ih (s.writeByte a (u.extractLsb' 0 8)) _ _ (Marks.add w a.toNat)

theorem State.writeReg_with_cycles (q : Reg) (v : Word) (k : Nat) :
    State.writeReg { s with cycles := k } q v = { s.writeReg q v with cycles := k } := by
  unfold State.writeReg
  split <;> rfl

theorem State.writeReg_with_written (q : Reg) (v : Word) (w : List Nat) :
    State.writeReg { s with written := w } q v = { s.writeReg q v with written := w } := by
  unfold State.writeReg
  split <;> rfl

/-- A stored register replaced before a register write: the write covers it, or leaves it in place. -/
theorem State.writeReg_with_stored (q r : Reg) (u v : Word) :
    State.writeReg { s with x := s.x.set r.val v r.isLt } q u =
      if q = r ∧ r ≠ 0 then s.writeReg q u
      else { s.writeReg q u with x := (s.writeReg q u).x.set r.val v r.isLt } := by
  by_cases hq : q = 0
  · have hnot : ¬(q = r ∧ r ≠ 0) := fun h => h.2 (h.1 ▸ hq)
    rw [if_neg hnot, hq]
    rfl
  by_cases hqr : q = r
  · subst hqr
    rw [if_pos ⟨rfl, hq⟩]
    simp [State.writeReg, hq]
  · rw [if_neg fun h => hqr h.1]
    have hval : r.val ≠ q.val := fun h => hqr (Fin.ext h.symm)
    simp [State.writeReg, hq, Vector.set_comm _ _ hval]

theorem State.readReg_with_stored (r q : Reg) (v : Word) (h : q ≠ r ∨ r = 0) :
    State.readReg { s with x := s.x.set r.val v r.isLt } q = s.readReg q := by
  by_cases hq : q = 0
  · simp [State.readReg, hq]
  · have hqr : q ≠ r := h.elim id fun h0 => h0 ▸ hq
    have hval : r.val ≠ q.val := fun h => hqr (Fin.ext h.symm)
    simp [State.readReg, hq, Vector.get_eq_getElem, hval]

end

/-! ### The register file -/

/-- A stored register whose reads an instruction does not depend on: the outcome is the same but for that storage, and
for it as well where the instruction writes it. -/
theorem exec_with_stored {i : Instr} {s t : State} {r : Reg} (v : Word) (h : exec i s = .next t)
    (hreg : ∀ q ∈ i.sources, q ≠ r ∨ r = 0) :
    exec i { s with x := s.x.set r.val v r.isLt } =
      .next (if i.dest = some r ∧ r ≠ 0 ∧ raises i s = none then t
        else { t with x := t.x.set r.val v r.isLt }) := by
  have hsame : SameEffect i s { s with x := s.x.set r.val v r.isLt } :=
    sameEffect_of_same_inputs (fun q hq => s.readReg_with_stored r q v (hreg q hq)) rfl fun _ => rfl
  cases hsame with
  | stop e hr hx hx' =>
    cases h.symm.trans hx
    rw [hx', hr, if_neg (by simp)]
    rfl
  | write rd u p hr hd hx hx' =>
    cases h.symm.trans hx
    rw [hx', State.writeReg_with_stored, hd, hr]
    by_cases hrd : rd = r ∧ r ≠ 0
    · rw [if_pos hrd, if_pos ⟨congrArg some hrd.1, hrd.2, rfl⟩]
    · rw [if_neg hrd, if_neg fun hc => hrd ⟨Option.some.inj hc.1, hc.2.1⟩]
      rfl
  | store ea n u p hd hx hx' =>
    cases h.symm.trans hx
    rw [hx', State.memWrite_with_x, hd, if_neg (by simp), State.retire_x, State.memWrite_x]
    rfl
  | branch p hd hx hx' =>
    cases h.symm.trans hx
    rw [hx', hd, if_neg (by simp)]
    rfl

/-- Settles O18: the sources of the instruction are other registers. -/
theorem unreadRegistersHaveNoInfluence : Obligations.UnreadRegistersHaveNoInfluence := by
  intro i s t r v hr h
  exact exec_with_stored v h fun q hq => .inl fun hqr => hr (hqr ▸ hq)

/-- Settles O19: register 0 is read as 0 by every instruction, and the fetch reads no register. -/
theorem storageBehindRegisterZeroIsUnobservable : Obligations.StorageBehindRegisterZeroIsUnobservable := by
  intro s t v h
  obtain ⟨-, ⟨i, hx, hstep⟩ | ⟨r, rfl, hstep⟩⟩ :=
    step_of_same_word h (s' := { s with x := s.x.set 0 v }) rfl rfl fun _ => rfl
  · have hx' := exec_with_stored (r := 0) v hx fun _ _ => .inr rfl
    rw [if_neg fun hc => hc.2.1 rfl] at hx'
    exact hstep.trans hx'
  · exact hstep

/-! ### The cycle counter -/

theorem exec_with_cycles {i : Instr} {s t : State} (n : Nat) (hrun : s.terminated = false) (h : exec i s = .next t) :
    exec i { s with cycles := n } = .next { t with cycles := if t.terminated then n else n + 1 } := by
  have hsame : SameEffect i s { s with cycles := n } :=
    sameEffect_of_same_inputs (fun _ _ => rfl) rfl fun _ => rfl
  cases hsame with
  | stop e hr hx hx' =>
    cases h.symm.trans hx
    exact hx'
  | write rd u p hr hd hx hx' =>
    cases h.symm.trans hx
    rw [hx', State.writeReg_with_cycles, if_neg (by simp [hrun])]
    rfl
  | store ea m u p hd hx hx' =>
    cases h.symm.trans hx
    rw [hx', State.memWrite_with_cycles, if_neg (by simp [hrun])]
    rfl
  | branch p hd hx hx' =>
    cases h.symm.trans hx
    rw [hx', if_neg (by simp [hrun])]
    rfl

/-- Settles O20: neither the fetch nor an instruction reads the counter. -/
theorem cycleCounterIsOutputOnly : Obligations.CycleCounterIsOutputOnly := by
  intro s t n h
  obtain ⟨hrun, ⟨i, hx, hstep⟩ | ⟨r, rfl, hstep⟩⟩ :=
    step_of_same_word h (s' := { s with cycles := n }) rfl rfl fun _ => rfl
  · exact hstep.trans (exec_with_cycles n hrun hx)
  · exact hstep

/-! ### The written marks -/

theorem exec_with_written {i : Instr} {s t : State} (w : List Nat) (h : exec i s = .next t) :
    ∃ w', exec i { s with written := w } = .next { t with written := w' } := by
  have hsame : SameEffect i s { s with written := w } :=
    sameEffect_of_same_inputs (fun _ _ => rfl) rfl fun _ => rfl
  cases hsame with
  | stop e hr hx hx' =>
    cases h.symm.trans hx
    exact ⟨w, hx'⟩
  | write rd u p hr hd hx hx' =>
    cases h.symm.trans hx
    exact ⟨w, by rw [hx', State.writeReg_with_written]; rfl⟩
  | store ea m u p hd hx hx' =>
    cases h.symm.trans hx
    obtain ⟨w', hw'⟩ := s.memWrite_with_written ea m u w
    exact ⟨w', by rw [hx', hw']; rfl⟩
  | branch p hd hx hx' =>
    cases h.symm.trans hx
    exact ⟨w, hx'⟩

/-- Settles O21: neither the fetch nor an instruction reads a mark. -/
theorem writtenMarksAreUnobservable : Obligations.WrittenMarksAreUnobservable := by
  intro s t w h
  obtain ⟨-, ⟨i, hx, hstep⟩ | ⟨r, rfl, hstep⟩⟩ :=
    step_of_same_word h (s' := { s with written := w }) rfl rfl fun _ => rfl
  · obtain ⟨w', hx'⟩ := exec_with_written w hx
    exact ⟨w', hstep.trans hx'⟩
  · exact ⟨w, hstep⟩

end Sys2Proof.Machine
end

section
/-! PROOFS. The arithmetic of stage X in closed form (41_alu_register.md and 42_muldiv.md). -/

namespace Sys2Proof.Machine

/-! ### Shifts by the whole amount (R163, R166, R167; decision D5) -/

theorem shiftLeft_eq_ofNat (a : Word) (n : Nat) : shiftLeft a n = BitVec.ofNat 32 (a.toNat * 2 ^ n) := by
  have hshift : shiftLeft a n = a <<< n := by
    unfold shiftLeft
    split
    · rfl
    · next h => exact (BitVec.shiftLeft_eq_zero (Nat.le_of_not_lt h)).symm
  rw [hshift]
  apply BitVec.eq_of_toNat_eq
  rw [BitVec.toNat_shiftLeft, BitVec.toNat_ofNat, Nat.shiftLeft_eq]

theorem shiftRightLogical_eq_ofNat (a : Word) (n : Nat) :
    shiftRightLogical a n = BitVec.ofNat 32 (a.toNat / 2 ^ n) := by
  have hshift : shiftRightLogical a n = a >>> n := by
    unfold shiftRightLogical
    split
    · rfl
    · next h => exact (BitVec.ushiftRight_eq_zero (Nat.le_of_not_lt h)).symm
  rw [hshift, ← Nat.shiftRight_eq_div_pow, ← BitVec.toNat_ushiftRight, BitVec.ofNat_toNat, BitVec.setWidth_eq]

/-- From an amount of 32 on, the arithmetic shift of the library is the sign fill as well. -/
theorem shiftRightArith_eq_sshiftRight (a : Word) (n : Nat) : shiftRightArith a n = a.sshiftRight n := by
  unfold shiftRightArith
  split
  · rfl
  · next h =>
    have hfill : (if a.msb then 0xFFFFFFFF#32 else 0#32) = BitVec.fill 32 a.msb := by
      cases a.msb <;> rfl
    rw [hfill]
    ext i hi
    have hout : ¬ n + i < 32 := by omega
    rw [BitVec.getElem_sshiftRight, dif_neg hout, BitVec.getElem_fill]

theorem shiftRightArith_eq_ofInt (a : Word) (n : Nat) :
    shiftRightArith a n = BitVec.ofInt 32 (Int.fdiv a.toInt (2 ^ n)) := by
  have hfloor : (a.sshiftRight n).toInt = Int.fdiv a.toInt (2 ^ n) := by
    rw [BitVec.toInt_sshiftRight, Int.shiftRight_eq_div_pow, Int.fdiv_eq_ediv_of_nonneg _ (by positivity)]
    norm_cast
  rw [shiftRightArith_eq_sshiftRight, ← hfloor, BitVec.ofInt_toInt]

/-! ### Multiplication and division -/

theorem aluMul_eq_ofNat (a b : Word) : aluMul a b = BitVec.ofNat 32 (a.toNat * b.toNat) := by
  rw [aluMul_eq, BitVec.ofNat_mul, BitVec.ofNat_toNat, BitVec.ofNat_toNat, BitVec.setWidth_eq, BitVec.setWidth_eq]

theorem remainder_trunc (a b : Int) : remainder .trunc a b = a.tmod b := by
  rw [Int.tmod_def, Int.mul_comm]
  rfl

/-- The truncated remainder is 0 or has the sign of the dividend (R183). -/
theorem tmod_eq_zero_or_pos_iff (a b : Int) : a.tmod b = 0 ∨ (0 < a.tmod b ↔ 0 < a) := by
  have hsign := Int.sign_tmod a b
  by_cases hdvd : b ∣ a
  · exact .inl (Int.tmod_eq_zero_of_dvd hdvd)
  · rw [if_neg hdvd] at hsign
    exact .inr (by rw [← Int.sign_eq_one_iff_pos, hsign, Int.sign_eq_one_iff_pos])

theorem natAbs_tmod_lt {a b : Int} (hb : b ≠ 0) : (a.tmod b).natAbs < b.natAbs := by
  rw [Int.natAbs_tmod]
  exact Nat.mod_lt _ (Int.natAbs_pos.2 hb)

/-- Where the division is exact or the operands have one sign, nothing is rounded away from the floor (R184). -/
theorem tdiv_eq_fdiv_of_dvd_or_mul_nonneg {a b : Int} (hb : b ≠ 0) (h : b ∣ a ∨ 0 ≤ a * b) :
    a.tdiv b = a.fdiv b := by
  rw [Int.tdiv_eq_fdiv]
  by_cases hdvd : b ∣ a
  · rw [if_pos hdvd, Int.add_zero]
  have hab : 0 ≤ a * b := h.resolve_left hdvd
  rw [if_neg hdvd]
  by_cases ha : 0 ≤ a
  · have hapos : 0 < a := lt_of_le_of_ne ha fun h0 => hdvd (h0 ▸ Int.dvd_zero b)
    rw [if_pos ha, if_pos (nonneg_of_mul_nonneg_right hab hapos), Int.add_zero]
  · have hbneg : b < 0 := lt_of_le_of_ne (nonpos_of_mul_nonneg_right hab (not_le.1 ha)) hb
    rw [if_neg ha, if_neg (not_le.2 hbneg), Int.sign_eq_neg_one_of_neg hbneg, Int.add_right_neg, Int.add_zero]

/-- Settles O32: the remainder follows the quotient. -/
theorem exactAndSameSignDivisionIgnoresRounding : Obligations.ExactAndSameSignDivisionIgnoresRounding := by
  intro a b hb h
  have hq : quotient .trunc a b = quotient .floor a b := tdiv_eq_fdiv_of_dvd_or_mul_nonneg hb h
  exact ⟨hq, congrArg (fun q => a - q * b) hq⟩

end Sys2Proof.Machine
end

section
/-! PROOFS. Result, completion and frame of the instructions that write a register or branch (41_alu_register.md to
44_loads.md, 46_branches.md, 47_upper_and_jumps.md). -/

namespace Sys2Proof.Machine

/-- Completing sequentially with a value, given in another form. -/
theorem completes_of_complete {i : Instr} {s : State} {rd : Reg} {v v' : Word} (h : exec i s = complete rd v s)
    (hv : v = v') : CompletesWriting i s rd v' (s.pc + 4#32) :=
  completes_of_completeTo (hv ▸ h)

/-- A branch completes as its condition says. -/
theorem completesAt_of_iff {i : Instr} {s : State} {c : Bool} {target : Word} {P : Prop} [Decidable P]
    (h : exec i s = completeBranch c target s) (hc : c = true ↔ P) :
    CompletesAt i s (if P then target else s.pc + 4#32) := by
  rw [← if_congr hc rfl rfl]
  exact completes_of_completeBranch h

/-! ### Register-register and register-immediate operations -/

/-- Settles O24: the integer forms are the wrapping ones. -/
theorem addSubResults : Obligations.AddSubResults := by
  intro s rd rs1 rs2
  exact ⟨completes_of_complete rfl (aluAdd_eq _ _), completes_of_complete rfl (aluSub_eq _ _)⟩

/-- Settles O25: each result is written as its rule gives it. -/
theorem logicResults : Obligations.LogicResults := by
  intro s rd rs1 rs2
  exact ⟨completes_of_complete rfl rfl, completes_of_complete rfl rfl, completes_of_complete rfl rfl⟩

theorem aluSlt_eq (a b : Word) : aluSlt a b = if a.toInt < b.toInt then 1#32 else 0#32 :=
  if_congr decide_eq_true_iff rfl rfl

/-- Settles O26: the condition of `slt` as a value. -/
theorem sltResult : Obligations.SltResult := by
  intro s rd rs1 rs2
  exact completes_of_complete rfl (aluSlt_eq _ _)

/-- Settles O33: the sum in its wrapping form, the logic as its rules give it. -/
theorem immediateResults : Obligations.ImmediateResults := by
  intro s rd rs1 imm
  exact ⟨completes_of_complete rfl (aluAdd_eq _ _), completes_of_complete rfl rfl, completes_of_complete rfl rfl⟩

theorem executeShift_of_nonneg {f : Word → Nat → Word} {s : State} {rd rs1 rs2 : Reg}
    (h : 0 ≤ (s.readReg rs2).toInt) :
    executeShift f rd rs1 rs2 s = complete rd (f (s.readReg rs1) (s.readReg rs2).toNat) s := by
  have hneg : ¬ isNegative (s.readReg rs2) = true := by simpa [isNegative] using h
  rw [executeShift, if_neg hneg, shiftAmount_full]

/-- Settles O27: the amount is not negative, so `sll` completes with the shifted value. -/
theorem sllResult : Obligations.SllResult := by
  intro s rd rs1 rs2 h
  exact completes_of_complete (executeShift_of_nonneg h) (shiftLeft_eq_ofNat _ _)

/-- Settles O28: the amount is not negative, so `srl` completes with the shifted value. -/
theorem srlResult : Obligations.SrlResult := by
  intro s rd rs1 rs2 h
  exact completes_of_complete (executeShift_of_nonneg h) (shiftRightLogical_eq_ofNat _ _)

/-- Settles O29: the amount is not negative, so `sra` completes with the shifted value. -/
theorem sraResult : Obligations.SraResult := by
  intro s rd rs1 rs2 h
  exact completes_of_complete (executeShift_of_nonneg h) (shiftRightArith_eq_ofInt _ _)

/-- Settles O30: the signed and the unsigned product agree in their low 32 bits. -/
theorem mulResult : Obligations.MulResult := by
  intro s rd rs1 rs2
  exact completes_of_complete rfl (aluMul_eq_ofNat _ _)

theorem executeDivision_of_ne_zero {f : Word → Word → Word} {s : State} {rd rs1 rs2 : Reg}
    (h : s.readReg rs2 ≠ 0#32) :
    executeDivision f rd rs1 rs2 s = complete rd (f (s.readReg rs1) (s.readReg rs2)) s := by
  have hzero : ¬ isZero (s.readReg rs2) = true := by simpa [isZero] using h
  rw [executeDivision, if_neg hzero]

/-- Settles O31: the quotient and the remainder of the division toward zero (decision D6). -/
theorem divRemResults : Obligations.DivRemResults := by
  intro s rd rs1 rs2 h
  have hb : (s.readReg rs2).toInt ≠ 0 := fun h0 => h (BitVec.eq_of_toInt_eq h0)
  refine ⟨(s.readReg rs1).toInt.tdiv (s.readReg rs2).toInt, (s.readReg rs1).toInt.tmod (s.readReg rs2).toInt,
    (Int.tdiv_mul_add_tmod _ _).symm, natAbs_tmod_lt hb, tmod_eq_zero_or_pos_iff _ _, ?_, ?_⟩
  · exact completes_of_complete (executeDivision_of_ne_zero h) rfl
  · exact completes_of_complete (executeDivision_of_ne_zero h) (congrArg trunc32 (remainder_trunc _ _))

/-! ### Branches, upper immediates and jumps -/

/-- Settles O40: the four conditions. -/
theorem branchResults : Obligations.BranchResults := by
  intro s rs1 rs2 imm
  exact ⟨completesAt_of_iff rfl (by simp [isEqual]), completesAt_of_iff rfl (by simp [isEqual]),
    completesAt_of_iff rfl (by simp [isLess]), completesAt_of_iff rfl (by simp [isLess])⟩

theorem upperImm_eq_shiftLeft (imm : BitVec 20) : upperImm imm = imm.setWidth 32 <<< 12 := by
  apply BitVec.eq_of_toNat_eq
  have himm : imm.toNat < 2 ^ 20 := imm.isLt
  have hleft : (upperImm imm).toNat = imm.toNat <<< 12 ||| 0 := BitVec.toNat_append imm 0#12
  rw [hleft, Nat.or_zero, BitVec.toNat_shiftLeft, BitVec.toNat_setWidth, Nat.shiftLeft_eq, Nat.shiftLeft_eq]
  omega

/-- Settles O41: the shifted immediate, alone and added to `pc + 4`. -/
theorem upperImmediateResults : Obligations.UpperImmediateResults := by
  intro s rd imm
  exact ⟨completes_of_complete rfl (upperImm_eq_shiftLeft imm),
    completes_of_complete rfl (congrArg (s.pc + 4#32 + ·) (upperImm_eq_shiftLeft imm))⟩

/-- Settles O42: link value and target as the rules give them. -/
theorem jumpResults : Obligations.JumpResults := by
  intro s rd rs1 off imm
  exact ⟨completes_of_completeTo rfl, completes_of_completeTo rfl⟩

end Sys2Proof.Machine
end

section
/-! PROOFS. Wide accesses byte for byte, and the loads and stores made of them (20_memory.md sections 1 to 8,
44_loads.md, 45_stores.md). -/

namespace Sys2Proof.Machine

/-! ### Values as sequences of bytes -/

/-- Two values of `n` bytes are equal when each byte is. -/
theorem eq_of_bytes_eq {n : Nat} {x y : BitVec (8 * n)}
    (h : ∀ i < n, x.extractLsb' (8 * i) 8 = y.extractLsb' (8 * i) 8) : x = y := by
  apply BitVec.eq_of_getLsbD_eq
  intro k hk
  have hbyte := congrArg (fun b : Byte => b.getLsbD (k % 8)) (h (k / 8) (by omega))
  have hmod : k % 8 < 8 := by omega
  simpa [hmod, Nat.div_add_mod] using hbyte

/-- Byte `d` of a value is the number of the value shifted down by `d` bytes. -/
theorem extract_byte_eq_ofNat {m : Nat} (x : BitVec m) (d : Nat) :
    x.extractLsb' (8 * d) 8 = BitVec.ofNat 8 (x.toNat / 256 ^ d) := by
  apply BitVec.eq_of_toNat_eq
  rw [BitVec.extractLsb'_toNat, BitVec.toNat_ofNat, Nat.shiftRight_eq_div_pow, Nat.pow_mul]

/-! ### Wide reads and writes -/

theorem toNat_add_ofNat_sub_self (a : Word) {i : Nat} (hi : i < 2 ^ 32) :
    (a + BitVec.ofNat 32 i - a).toNat = i := by
  have hback : a + BitVec.ofNat 32 i - a = BitVec.ofNat 32 i := by
    rw [BitVec.add_comm, BitVec.add_sub_cancel]
  rw [hback, BitVec.toNat_ofNat, Nat.mod_eq_of_lt hi]

/-- What was written is read back, at any width and across the end of the address space (R69). -/
theorem State.memWrite_memRead (s : State) (a : Word) (n : Nat) (v : BitVec (8 * n)) (hn : n ≤ 2 ^ 32) :
    (s.memWrite a n v).memRead a n = v := by
  refine eq_of_bytes_eq fun i hi => ?_
  rw [State.memRead_byte _ _ _ _ hi, State.memWrite_readByte _ _ _ _ hn, toNat_add_ofNat_sub_self a (by omega),
    if_pos hi]

/-- The low bytes of a wide read are the narrower read at the same address. -/
theorem lowWord_memRead (s : State) (a : Word) : lowWord (s.memRead a 8) = s.memRead a 4 := by
  refine eq_of_bytes_eq (n := 4) fun i hi => ?_
  rw [State.memRead_byte _ _ _ _ hi, ← State.memRead_byte s a 8 i (by omega), lowWord]
  exact (extract_extract _ 0 32 (8 * i) 8 (by omega)).trans (by rw [Nat.zero_add])

theorem lowWord_padDouble (v : Word) : lowWord (padDouble v) = v := by
  ext i hi
  have h64 : i < 64 := by omega
  simp [lowWord, padDouble, h64, BitVec.getLsbD_eq_getElem hi]

/-- Settles O44: each clause is the rule of the wide access for one byte. -/
theorem wideAccessesAreByteForByte : Obligations.WideAccessesAreByteForByte := by
  intro s a n v hn
  have hwidth : ∀ m ∈ [1, 2, 4, 8], m ≤ 2 ^ 32 := by decide
  have hn32 : n ≤ 2 ^ 32 := hwidth n hn
  refine ⟨fun i hi => s.memRead_byte a n i hi, fun i hi => ?_, fun k hk => ?_⟩
  · rw [State.memWrite_readByte _ _ _ _ hn32, State.memWrite_isWritten _ _ _ _ hn32,
      toNat_add_ofNat_sub_self a (by omega), if_pos hi, decide_eq_true hi]
    exact ⟨rfl, rfl⟩
  · have hback : a + BitVec.ofNat 32 (k - a).toNat = k := by
      rw [BitVec.ofNat_toNat, BitVec.setWidth_eq, BitVec.add_comm, BitVec.sub_add_cancel]
    have hout : ¬(k - a).toNat < n := fun hlt => hk _ hlt hback.symm
    rw [State.memWrite_readByte _ _ _ _ hn32, State.memWrite_isWritten _ _ _ _ hn32, if_neg hout, decide_eq_false hout]
    exact ⟨rfl, rfl⟩

/-! ### Effective address -/

/-- Settles O37: the wrapping sum, read as a number. -/
theorem effectiveAddressIsBasePlusOffset : Obligations.EffectiveAddressIsBasePlusOffset := by
  intro s rs1 imm
  have hsum : effectiveAddress s rs1 imm = trunc32 ((s.readReg rs1).toInt + imm.toInt) := by
    rw [← sext_toInt imm (by decide)]
    exact (aluAdd_eq _ _).symm
  rw [hsum, trunc32, BitVec.toNat_ofInt, Int.toNat_of_nonneg (Int.emod_nonneg _ (by decide))]
  rfl

/-! ### Loads -/

/-- Settles O34: a read of one byte. -/
theorem byteLoadResults : Obligations.ByteLoadResults := by
  intro s rd rs1 imm
  exact ⟨completes_of_complete rfl (congrArg (BitVec.signExtend 32) (s.memRead_one _)),
    completes_of_complete rfl (congrArg (BitVec.setWidth 32) (s.memRead_one _))⟩

/-- Settles O35: reads of two and four bytes, and the low half of a read of eight. -/
theorem wideLoadResults : Obligations.WideLoadResults := by
  intro s rd rs1 imm
  exact ⟨completes_of_complete rfl (congrArg (BitVec.signExtend 32) (s.memRead_two _)),
    completes_of_complete rfl (s.memRead_four _),
    completes_of_complete rfl ((lowWord_memRead s _).trans (s.memRead_four _))⟩

/-! ### Stores -/

/-- The low bytes of a number do not depend on the bytes above them. -/
theorem ofNat_byte_of_mod (x : Nat) {n d : Nat} (hd : d < n) :
    BitVec.ofNat 8 (x % 256 ^ n / 256 ^ d) = BitVec.ofNat 8 (x / 256 ^ d) := by
  have hsplit : 256 ^ n = 256 ^ d * 256 ^ (n - d) := by rw [← Nat.pow_add]; congr 1; omega
  have hdvd : 256 ∣ 256 ^ (n - d) := dvd_pow_self 256 (by omega)
  apply BitVec.eq_of_toNat_eq
  rw [BitVec.toNat_ofNat, BitVec.toNat_ofNat, hsplit, Nat.mod_mul_right_div_self]
  exact Nat.mod_mod_of_dvd _ hdvd

/-- A store completes with the low bytes of any number that has the stored value in them. -/
theorem completes_of_completeStore {i : Instr} {s : State} {ea : Word} {n x : Nat} {v : BitVec (8 * n)}
    (h : exec i s = completeStore ea n v s) (hn : n ≤ 2 ^ 32) (hv : v.toNat = x % 256 ^ n) :
    CompletesStoring i s ea n x := by
  refine ⟨_, h, fun q => by simp, rfl, by simp, by simp [SameFlag], fun a => ⟨?_, ?_⟩⟩
  · rw [State.retire_readByte, State.memWrite_readByte _ _ _ _ hn]
    refine ite_congr rfl (fun hlt => ?_) fun _ => rfl
    rw [extract_byte_eq_ofNat, hv, ofNat_byte_of_mod x hlt]
  · rw [State.retire_isWritten, State.memWrite_isWritten _ _ _ _ hn]

/-- Settles O36: the stored values are the low bytes of `x[rs2]`, and all of it under zeros for `sd`. -/
theorem storeResults : Obligations.StoreResults := by
  intro s rs1 rs2 imm
  have hlt : (s.readReg rs2).toNat < 2 ^ 32 := (s.readReg rs2).isLt
  refine ⟨completes_of_completeStore rfl (by decide) ?_, completes_of_completeStore rfl (by decide) ?_,
    completes_of_completeStore rfl (by decide) ?_, completes_of_completeStore rfl (by decide) ?_⟩
  · simp
  · simp
  · exact (Nat.mod_eq_of_lt hlt).symm
  · simp [padDouble]

/-- After a store, a load of the same width from the same base register and offset reads the stored value. -/
theorem memRead_after_store (s : State) (rs1 : Reg) (imm : BitVec 12) (n : Nat) (v : BitVec (8 * n)) (p : Word)
    (hn : n ≤ 2 ^ 32) :
    State.memRead ((s.memWrite (effectiveAddress s rs1 imm) n v).retire p)
      (effectiveAddress ((s.memWrite (effectiveAddress s rs1 imm) n v).retire p) rs1 imm) n = v := by
  have hea : effectiveAddress ((s.memWrite (effectiveAddress s rs1 imm) n v).retire p) rs1 imm =
      effectiveAddress s rs1 imm := by simp [effectiveAddress]
  rw [hea, State.memRead_congr (fun _ => State.retire_readByte ..), State.memWrite_memRead _ _ _ _ hn]

/-- Settles O38: the load reads what the store wrote. -/
theorem storeThenLoadGivesTheValue : Obligations.StoreThenLoadGivesTheValue := by
  intro s t rs1 rs2 rd imm
  refine ⟨fun h => ?_, fun h => ?_⟩ <;> cases h
  · exact completes_of_complete rfl (memRead_after_store s rs1 imm 4 _ _ (by decide))
  · exact completes_of_complete rfl
      ((congrArg lowWord (memRead_after_store s rs1 imm 8 _ _ (by decide))).trans (lowWord_padDouble _))

/-- Settles O39: the next fetch reads the four bytes just stored. -/
theorem storeIsSeenByTheNextFetch : Obligations.StoreIsSeenByTheNextFetch := by
  intro s t rs1 rs2 imm hea h
  cases h
  calc wordAtPc ((s.memWrite (effectiveAddress s rs1 imm) 4 (s.readReg rs2)).retire s.nextPc)
      = State.memRead ((s.memWrite (effectiveAddress s rs1 imm) 4 (s.readReg rs2)).retire s.nextPc) s.nextPc 4 :=
        (State.fetch_eq_wordAtPc _).symm
    _ = (s.memWrite s.nextPc 4 (s.readReg rs2)).memRead s.nextPc 4 := by
        rw [State.memRead_congr (fun _ => State.retire_readByte ..), hea, State.nextPc]
    _ = s.readReg rs2 := State.memWrite_memRead _ _ _ _ (by decide)

end Sys2Proof.Machine
end

section
/-! PROOFS. What a completed instruction does to memory and to `pc` (20_memory.md section 1, 10_state.md section 3). -/

namespace Sys2Proof.Machine

/-- Settles O22: of the four outcomes only `store` touches memory, and it only adds marks. -/
theorem onlyStoresChangeMemory : Obligations.OnlyStoresChangeMemory := by
  intro i s t h
  cases exec_outcome i s with
  | stop e _ hx =>
    cases h.symm.trans hx
    exact ⟨fun _ => ⟨rfl, rfl⟩, fun _ ha => ha⟩
  | write rd v p _ _ hx =>
    cases h.symm.trans hx
    exact ⟨fun _ => by simp, fun a ha => by simpa using ha⟩
  | store ea n v _ hf hn _ hx =>
    cases h.symm.trans hx
    refine ⟨fun hne => absurd hf hne, fun a ha => ?_⟩
    rw [State.retire_isWritten, State.memWrite_isWritten _ _ _ _ (by omega), ha, Bool.or_true]
  | branch c p _ _ _ hx =>
    cases h.symm.trans hx
    exact ⟨fun _ => ⟨rfl, rfl⟩, fun _ ha => ha⟩

section
variable {i : Instr} {s t : State} {p : Word}

theorem CompletesWriting.pc_eq {rd : Reg} {v : Word} (h : CompletesWriting i s rd v p) (hx : exec i s = .next t) :
    t.pc = p := by
  obtain ⟨t', ht', -, hpc, -⟩ := h
  cases hx.symm.trans ht'
  exact hpc

theorem CompletesAt.pc_eq (h : CompletesAt i s p) (hx : exec i s = .next t) : t.pc = p := by
  obtain ⟨t', ht', -, hpc, -⟩ := h
  cases hx.symm.trans ht'
  exact hpc

theorem CompletesStoring.pc_eq {ea : Word} {n v : Nat} (h : CompletesStoring i s ea n v) (hx : exec i s = .next t) :
    t.pc = s.pc + 4#32 := by
  obtain ⟨t', ht', -, hpc, -⟩ := h
  cases hx.symm.trans ht'
  exact hpc

end

/-- Settles O23: the next `pc` of each instruction's result. -/
theorem programCounterAdvance : Obligations.ProgramCounterAdvance := by
  intro i s t h hr
  cases i with
  | jal rd off => exact (jumpResults s rd 0 off 0).1.pc_eq h
  | jalr rd rs1 imm => exact (jumpResults s rd rs1 0 imm).2.pc_eq h
  | beq rs1 rs2 imm => exact (branchResults s rs1 rs2 imm).1.pc_eq h
  | bne rs1 rs2 imm => exact (branchResults s rs1 rs2 imm).2.1.pc_eq h
  | blt rs1 rs2 imm => exact (branchResults s rs1 rs2 imm).2.2.1.pc_eq h
  | bge rs1 rs2 imm => exact (branchResults s rs1 rs2 imm).2.2.2.pc_eq h
  | sb rs1 rs2 imm => exact (storeResults s rs1 rs2 imm).1.pc_eq h
  | sh rs1 rs2 imm => exact (storeResults s rs1 rs2 imm).2.1.pc_eq h
  | sw rs1 rs2 imm => exact (storeResults s rs1 rs2 imm).2.2.1.pc_eq h
  | sd rs1 rs2 imm => exact (storeResults s rs1 rs2 imm).2.2.2.pc_eq h
  | sll rd rs1 rs2 => exact (sllResult s rd rs1 rs2 (by simpa [raises] using hr)).pc_eq h
  | srl rd rs1 rs2 => exact (srlResult s rd rs1 rs2 (by simpa [raises] using hr)).pc_eq h
  | sra rd rs1 rs2 => exact (sraResult s rd rs1 rs2 (by simpa [raises] using hr)).pc_eq h
  | div rd rs1 rs2 =>
    obtain ⟨_, _, -, -, -, hdiv, -⟩ := divRemResults s rd rs1 rs2 (by simpa [raises] using hr)
    exact hdiv.pc_eq h
  | rem rd rs1 rs2 =>
    obtain ⟨_, _, -, -, -, -, hrem⟩ := divRemResults s rd rs1 rs2 (by simpa [raises] using hr)
    exact hrem.pc_eq h
  | _ => exact (completes_of_complete rfl rfl).pc_eq h

end Sys2Proof.Machine
end

section
/-! PROOFS. Reset, image load, run loop and dumps (70_reset_and_hazards.md, 40_pipeline.md section 7, 60_exceptions.md
section 5). -/

namespace Sys2Proof.Machine

/-! ### Image load and reset -/

/-- The image load touches memory and the marks alone. -/
theorem loadImage_fields (es : List (Word × Word)) (s : State) :
    ∃ m w, loadImage es s = { s with mem := m, written := w } := by
  induction es generalizing s with
  | nil => exact ⟨s.mem, s.written, rfl⟩
  | cons e es ih =>
    obtain ⟨m, w, h⟩ := ih (s.memWrite e.1 4 e.2)
    refine ⟨m, w, h.trans ?_⟩
    rw [State.memWrite_fields]

/-- One entry more is one wide write more. -/
theorem loadImage_append_entry (es : List (Word × Word)) (A W : Word) (s : State) :
    loadImage (es ++ [(A, W)]) s = (loadImage es s).memWrite A 4 W :=
  List.foldl_append

/-- Settles O47: the last entry is written over what the entries before it left. -/
theorem imageLoadWritesEntriesInOrder : Obligations.ImageLoadWritesEntriesInOrder := by
  intro es A W s
  refine ⟨loadImage_fields es s, fun k => ?_⟩
  rw [loadImage_append_entry, State.memWrite_readByte _ _ _ _ (by decide), State.memWrite_isWritten _ _ _ _ (by decide)]
  exact ⟨rfl, rfl⟩

theorem boot_pc (es : List (Word × Word)) : (State.boot es).pc = 0#32 := by
  obtain ⟨m, w, h⟩ := loadImage_fields es State.reset
  rw [State.boot, h]
  rfl

/-- Settles O45: the fields of the reset state, and the `pc` that no image changes. -/
theorem resetValues : Obligations.ResetValues := by
  refine ⟨by decide, rfl, fun _ => ⟨rfl, rfl⟩, rfl, rfl, rfl, fun es => ?_⟩
  rw [wordAtPc, boot_pc]
  rfl

/-- Settles O46: with no byte written the first word is the halt word. -/
theorem emptyImageHaltsAtOnce : Obligations.EmptyImageHaltsAtOnce := by
  have hfetch : State.reset.fetch = 0#32 := by decide
  exact step_of_reject (r := .haltWord) rfl (hfetch ▸ decode_haltWord)

/-! ### The run loop -/

theorem runLoop_of_terminated {s : State} (h : s.terminated = true) (n : Nat) : runLoop n s = s := by
  cases n with
  | zero => rfl
  | succ n => simp only [runLoop, step_of_terminated h]

theorem runLoop_of_step {s t : State} (h : step s = .next t) (n : Nat) : runLoop (n + 1) s = runLoop n t := by
  simp only [runLoop, h]

/-- A running core has a next state, and where that is still running one cycle was counted. -/
theorem step_of_running {s : State} (h : s.terminated = false) :
    ∃ t, step s = .next t ∧ (t.terminated = false → t.cycles = s.cycles + 1) := by
  have hstep := everyStepStopsPreciselyOrCompletes s h
  cases hc : stopCondition s with
  | some r =>
    rw [hc] at hstep
    exact ⟨_, hstep, fun hrun => absurd hrun (by simp)⟩
  | none =>
    rw [hc] at hstep
    obtain ⟨t, ht, -, -, hcycles⟩ := hstep
    exact ⟨t, ht, fun _ => hcycles⟩

/-- Settles O50, by induction on the iterations: a run that has not stopped has completed an instruction in each. -/
theorem cyclesCountTheIterations : Obligations.CyclesCountTheIterations := by
  intro n
  induction n with
  | zero => exact fun s _ => rfl
  | succ n ih =>
    intro s h
    cases hs : s.terminated with
    | true => rw [runLoop_of_terminated hs, hs] at h; cases h
    | false =>
      obtain ⟨t, ht, hcycles⟩ := step_of_running hs
      rw [runLoop_of_step ht] at h ⊢
      have hrun : t.terminated = false := by
        cases hterm : t.terminated with
        | true => rw [runLoop_of_terminated hterm, hterm] at h; exact h
        | false => rfl
      rw [ih t h, hcycles hrun]
      omega

theorem runLoop_add (m n : Nat) (s : State) : runLoop (m + n) s = runLoop n (runLoop m s) := by
  induction m generalizing s with
  | zero => rw [Nat.zero_add]; rfl
  | succ m ih =>
    cases hs : s.terminated with
    | true => simp only [runLoop_of_terminated hs]
    | false =>
      obtain ⟨t, ht, -⟩ := step_of_running hs
      rw [Nat.add_right_comm, runLoop_of_step ht, runLoop_of_step ht, ih]

/-- Settles O51: a run cut in two, the second part from a terminated state in the second clause. -/
theorem runsComposeAndStopsLast : Obligations.RunsComposeAndStopsLast := by
  intro m n s
  exact ⟨runLoop_add m n s, fun h => (runLoop_add m n s).trans (runLoop_of_terminated h n)⟩

/-! ### The placed word -/

/-- The bytes of a word make the word again (R54, R55). -/
theorem wordOfBytes_bytes (w : Word) :
    wordOfBytes (w.extractLsb' 0 8) (w.extractLsb' 8 8) (w.extractLsb' 16 8) (w.extractLsb' 24 8) = w := by
  simp (disch := decide) only [wordOfBytes, extract_adjacent]
  exact BitVec.extractLsb'_eq_self

theorem decode_tableWord_of_decodeTableWord {nbits w : Nat} {i : Instr} (h : decodeTableWord nbits w = some i) :
    decode (tableWord nbits w) = .ok i := by
  simp only [decodeTableWord, bytesOfWord, decodeBytes, wordOfBytes_bytes] at h
  cases hd : decode (tableWord nbits w) with
  | ok j =>
    rw [hd] at h
    exact congrArg Except.ok (Option.some.inj h)
  | error r =>
    rw [hd] at h
    cases h

theorem withFetchWord_fetch (s : State) (nbits w : Nat) : (s.withFetchWord nbits w).fetch = tableWord nbits w := by
  have hpc : (s.withFetchWord nbits w).pc = s.pc := by
    simp only [State.withFetchWord, State.memWrite_pc]
  have hbyte : ∀ a, (s.withFetchWord nbits w).readByte a = (s.memWrite s.pc 4 (tableWord nbits w)).readByte a :=
    fun _ => rfl
  rw [State.fetch, hpc, State.memRead_congr hbyte, State.memWrite_memRead _ _ _ _ (by decide)]

/-- Settles O52: the placed word is the fetched one. -/
theorem placedWordIsTheNextInstruction : Obligations.PlacedWordIsTheNextInstruction := by
  intro s nbits w i h
  have hd : decode (s.withFetchWord nbits w).fetch = .ok i := by
    rw [withFetchWord_fetch]
    exact decode_tableWord_of_decodeTableWord h
  exact step_of_decode rfl hd

/-! ### The dumps -/

/-- Settles O48: both lists are maps over the indices in order. -/
theorem registerDumpIsTheRegisters : Obligations.RegisterDumpIsTheRegisters := by
  intro s
  refine ⟨by simp [dumpRegisters], by simp [registerDumpLines], fun r => ⟨?_, ?_⟩⟩
  · simp [dumpRegisters]
  · simp [registerDumpLines, registerLine]

/-- The dump window holds 16384 aligned words. -/
theorem mem_dumpAddresses {A : Word} :
    A ∈ dumpAddresses ↔ 0x10000000 ≤ A.toNat ∧ A.toNat < 0x1000FFFD ∧ A.toNat % 4 = 0 := by
  simp only [dumpAddresses, Config.dumpLo, Config.dumpHi, List.mem_map, List.mem_range]
  constructor
  · rintro ⟨k, hk, rfl⟩
    rw [BitVec.toNat_ofNat]
    omega
  · rintro ⟨hlo, hhi, halign⟩
    refine ⟨(A.toNat - 0x10000000) / 4, by omega, ?_⟩
    apply BitVec.eq_of_toNat_eq
    rw [BitVec.toNat_ofNat]
    omega

theorem dumpAddresses_increasing : dumpAddresses.Pairwise (fun a b => a.toNat < b.toNat) := by
  rw [dumpAddresses, List.pairwise_map]
  refine List.pairwise_lt_range.imp_of_mem fun {j k} hj hk hlt => ?_
  simp only [Config.dumpLo, Config.dumpHi, List.mem_range] at hj hk ⊢
  rw [BitVec.toNat_ofNat, BitVec.toNat_ofNat]
  omega

theorem wordTouched_iff {s : State} {A : Word} :
    wordTouched s A = true ↔ ∃ i < 4, s.isWritten (A + BitVec.ofNat 32 i) = true := by
  simp only [wordTouched, Bool.or_eq_true]
  constructor
  · rintro (((h | h) | h) | h)
    · exact ⟨0, by decide, by simpa using h⟩
    · exact ⟨1, by decide, h⟩
    · exact ⟨2, by decide, h⟩
    · exact ⟨3, by decide, h⟩
  · rintro ⟨i, hi, h⟩
    have hi : i = 0 ∨ i = 1 ∨ i = 2 ∨ i = 3 := by omega
    obtain rfl | rfl | rfl | rfl := hi
    · exact .inl (.inl (.inl (by simpa using h)))
    · exact .inl (.inl (.inr h))
    · exact .inl (.inr h)
    · exact .inr h

/-- Settles O49: the window's addresses in order, those with a written byte, each with the word there. -/
theorem dataDumpIsTheWrittenWindow : Obligations.DataDumpIsTheWrittenWindow := by
  intro s
  refine ⟨fun A w => ?_, ?_⟩
  · have hmem : (A, w) ∈ dumpData s ↔ (A ∈ dumpAddresses ∧ wordTouched s A = true) ∧ w = s.memRead A 4 := by
      simp only [dumpData, List.mem_map, List.mem_filter, Prod.mk.injEq]
      exact ⟨fun ⟨_, ha, hA, hw⟩ => hA ▸ ⟨ha, hw.symm⟩, fun ⟨ha, hw⟩ => ⟨A, ha, rfl, hw.symm⟩⟩
    rw [hmem, mem_dumpAddresses, wordTouched_iff, State.memRead_four]
    simp only [and_assoc]
  · rw [dumpData, List.pairwise_map]
    exact dumpAddresses_increasing.filter _

end Sys2Proof.Machine
end
